-- ==== Sys2Proof/Word.lean ====
section
/-! DEFINITION. The word types of CORE (spec/00_scope.md R7, R9): bytes and the 9-bit program counter. -/

namespace Sys2Proof

/-- A register, memory cell, operand, immediate or opcode: an unsigned 8-bit value (R9). -/
abbrev Byte := BitVec 8

/-- A value of the program counter: 9 bits, so that 256 to 259 are held exactly (R7, R26). -/
abbrev Pc := BitVec 9

end Sys2Proof
end

