-- ==== Sys2Proof/Config.lean ====
section
/-! DEFINITION. The two implementation parameters of spec/00_scope.md R7, OPCODE_MAP and UNKNOWN_OPCODE_POLICY.
Their default values, and the check of R79 that a map is acceptable, stand in Sys2Proof/Decode.lean.
The spec leaves no value undefined after an instruction, so there is no free value here. -/

namespace Sys2Proof

/-- The thirteen rows of the dispatch table, by mnemonic (R2). -/
inductive Opcode where
  | ldi | prn | hlt | mul | add | cmp | push | pop | call | ret | jmp | jeq | jne
  deriving DecidableEq, Repr

/-- Every row of the dispatch table, in the table's order (R2). -/
def Opcode.all : List Opcode :=
  [.ldi, .prn, .hlt, .mul, .add, .cmp, .push, .pop, .call, .ret, .jmp, .jeq, .jne]

/-- OPCODE_MAP: the byte of each opcode (R7, R76). Which maps are legal is `OpcodeMap.legal` (R79). -/
structure OpcodeMap where
  ldi  : Byte
  prn  : Byte
  hlt  : Byte
  mul  : Byte
  add  : Byte
  cmp  : Byte
  push : Byte
  pop  : Byte
  call : Byte
  ret  : Byte
  jmp  : Byte
  jeq  : Byte
  jne  : Byte
  deriving DecidableEq, Repr

/-- The byte the map gives to an opcode. -/
def OpcodeMap.byte (m : OpcodeMap) : Opcode → Byte
  | .ldi  => m.ldi
  | .prn  => m.prn
  | .hlt  => m.hlt
  | .mul  => m.mul
  | .add  => m.add
  | .cmp  => m.cmp
  | .push => m.push
  | .pop  => m.pop
  | .call => m.call
  | .ret  => m.ret
  | .jmp  => m.jmp
  | .jeq  => m.jeq
  | .jne  => m.jne

/-- UNKNOWN_OPCODE_POLICY (R7, R80): `fault` is R103, `skip` is R104. -/
inductive UnknownOpcodePolicy where
  | fault
  | skip
  deriving DecidableEq, Repr

/-- The configuration arguments of the step (R7, R36): parameters, not state. -/
structure Config where
  opcodes : OpcodeMap
  policy  : UnknownOpcodePolicy
  deriving DecidableEq, Repr

end Sys2Proof
end

