-- ==== Sys2Proof/Syntax.lean ====
section
/-! DEFINITION. The instructions of CORE-13 as syntax: one constructor per row of spec/opcode_table.json. -/

namespace Sys2Proof

/-- An instruction with its operand bytes `a` and `b` (R12, R77). A register operand is the whole operand byte
(R24, R78): bytes 8 to 255 name no register and fault when the register is accessed, so they are syntax too. -/
inductive Instr where
  /-- LDI a, b: register index, immediate (R120). -/
  | ldi (a b : Byte)
  /-- PRN a (R122). -/
  | prn (a : Byte)
  /-- HLT (R126). -/
  | hlt
  /-- MUL a, b: regA (source and destination), regB (R142). -/
  | mul (a b : Byte)
  /-- ADD a, b: regA (source and destination), regB (R144). -/
  | add (a b : Byte)
  /-- CMP a, b (R146). -/
  | cmp (a b : Byte)
  /-- PUSH a (R162). -/
  | push (a : Byte)
  /-- POP a (R164). -/
  | pop (a : Byte)
  /-- CALL a: the register that holds the target (R182). -/
  | call (a : Byte)
  /-- RET (R184). -/
  | ret
  /-- JMP a (R186). -/
  | jmp (a : Byte)
  /-- JEQ a (R188). -/
  | jeq (a : Byte)
  /-- JNE a (R190). -/
  | jne (a : Byte)
  deriving DecidableEq, Repr

end Sys2Proof
end

