-- ==== Sys2Proof/WellFormed.lean ====
section
/-! DEFINITION. When an instruction is well-formed: every register operand names one of R0 to R7.
The hardware does not check this when it decodes (R81): an ill-formed instruction decodes, is encoded and runs, and an access
to the register it does not name is the fault OutOfRange (R24). So the decoder and the machine take every `Instr`, and this
check says which instructions cannot raise a register fault and which have a name in the assembly notation of R82. -/

namespace Sys2Proof

/-- The operand byte names one of R0 to R7 (R24). -/
def namesRegister (a : Byte) : Bool := decide (a.toNat < 8)

/-- Every register operand of the instruction names a register (R24, R77). -/
def Instr.wellFormed : Instr → Bool
  | .ldi a _ => namesRegister a
  | .prn a   => namesRegister a
  | .hlt     => true
  | .mul a b => namesRegister a && namesRegister b
  | .add a b => namesRegister a && namesRegister b
  | .cmp a b => namesRegister a && namesRegister b
  | .push a  => namesRegister a
  | .pop a   => namesRegister a
  | .call a  => namesRegister a
  | .ret     => true
  | .jmp a   => namesRegister a
  | .jeq a   => namesRegister a
  | .jne a   => namesRegister a

end Sys2Proof
end

