-- ==== Sys2Proof/Decode.lean ====
section
/-! DEFINITION. The encoding of spec/30_encoding.md: the fields of the opcode byte, the default OPCODE_MAP and when a map is
legal, the three formats, the decoder (total on any bytes) and the encoder. -/

namespace Sys2Proof

/-! ### The fields of the opcode byte -/

/-- The AA field, bits 7:6: the operand count the engine reads from the byte (R72). -/
def aaField (ir : Byte) : Nat := (ir.extractLsb' 6 2).toNat

/-- The C field, bit 4: the instruction itself sets the PC (R72). -/
def cField (ir : Byte) : Bool := ir.getLsbD 4

/-- The length of an instruction, told from its first byte alone (R74). -/
def instrLength (ir : Byte) : Nat := 1 + aaField ir

/-! ### The dispatch table's static columns -/

/-- The number of operand bytes: formats F0, F1 and F2 (R71). -/
def Opcode.operandCount : Opcode → Nat
  | .hlt | .ret => 0
  | .prn | .push | .pop | .call | .jmp | .jeq | .jne => 1
  | .ldi | .mul | .add | .cmp => 2

/-- The table's "PC-setting?" column (R72, R76). -/
def Opcode.setsPc : Opcode → Bool
  | .call | .ret | .jmp | .jeq | .jne => true
  | .ldi | .prn | .hlt | .mul | .add | .cmp | .push | .pop => false

/-- The opcode of an instruction. -/
def Instr.opcode : Instr → Opcode
  | .ldi _ _ => .ldi
  | .prn _   => .prn
  | .hlt     => .hlt
  | .mul _ _ => .mul
  | .add _ _ => .add
  | .cmp _ _ => .cmp
  | .push _  => .push
  | .pop _   => .pop
  | .call _  => .call
  | .ret     => .ret
  | .jmp _   => .jmp
  | .jeq _   => .jeq
  | .jne _   => .jne

/-! ### OPCODE_MAP -/

/-- A map is legal when bits 7:6 and bit 4 of every byte agree with the dispatch table and the bytes are distinct (R79). -/
def OpcodeMap.legal (m : OpcodeMap) : Bool :=
  Opcode.all.all (fun op => aaField (m.byte op) == op.operandCount && cField (m.byte op) == op.setsPc)
    && decide (Opcode.all.map m.byte).Nodup

/-- A configuration whose map is legal: the only configurations the step accepts (R79). -/
abbrev LegalConfig := { c : Config // c.opcodes.legal = true }

/-- Accept a configuration, or refuse it because its map breaks R79. -/
def acceptConfig (c : Config) : Option LegalConfig :=
  if h : c.opcodes.legal = true then some ⟨c, h⟩ else none

/-- The default OPCODE_MAP, the LS-8 values (R76, D1). UNVERIFIED: the spec takes them from general knowledge (G2);
notes/assumptions/1.md. Unsafe for claims about binary programs if a value is wrong. -/
def OpcodeMap.ls8 : OpcodeMap where
  ldi  := 0b10000010#8
  prn  := 0b01000111#8
  hlt  := 0b00000001#8
  mul  := 0b10100010#8
  add  := 0b10100000#8
  cmp  := 0b10100111#8
  push := 0b01000101#8
  pop  := 0b01000110#8
  call := 0b01010000#8
  ret  := 0b00010001#8
  jmp  := 0b01010100#8
  jeq  := 0b01010101#8
  jne  := 0b01010110#8

/-- The default of UNKNOWN_OPCODE_POLICY (R7, R80, D2); notes/assumptions/2.md. -/
def defaultPolicy : UnknownOpcodePolicy := .fault

/-- The default configuration: the one the fixed name `Sys2Proof.Machine.step` runs under (R7). -/
def defaultConfig : LegalConfig := ⟨⟨OpcodeMap.ls8, defaultPolicy⟩, by decide⟩

/-! ### Formats -/

/-- A row of the dispatch table: what is still to be fetched before the instruction is complete. The three constructors are
the formats F0, F1 and F2 of R71, and the functions say which operand byte is which (R77). -/
inductive Form where
  | f0 (i : Instr)
  | f1 (mk : Byte → Instr)
  | f2 (mk : Byte → Byte → Instr)

/-- The format of each opcode (R71, R77). -/
def Opcode.form : Opcode → Form
  | .ldi  => .f2 .ldi
  | .prn  => .f1 .prn
  | .hlt  => .f0 .hlt
  | .mul  => .f2 .mul
  | .add  => .f2 .add
  | .cmp  => .f2 .cmp
  | .push => .f1 .push
  | .pop  => .f1 .pop
  | .call => .f1 .call
  | .ret  => .f0 .ret
  | .jmp  => .f1 .jmp
  | .jeq  => .f1 .jeq
  | .jne  => .f1 .jne

/-! ### The decoder -/

/-- Why a list of bytes is no instruction. -/
inductive DecodeError where
  /-- There is no byte at all. -/
  | noOpcodeByte
  /-- The first byte is none of the thirteen values of OPCODE_MAP (R80). -/
  | unknownOpcode (ir : Byte)
  /-- The list ends before operand `index` (0 for a, 1 for b). -/
  | missingOperand (index : Nat)
  deriving DecidableEq, Repr

/-- The opcode a byte stands for, compared as a whole byte (R73, R102). -/
def opcodeOf? (m : OpcodeMap) (ir : Byte) : Option Opcode :=
  Opcode.all.find? (fun op => m.byte op == ir)

/-- Take the operands of a row from the bytes that follow the opcode (R70, R77). -/
def completeForm : Form → List Byte → Except DecodeError (Instr × List Byte)
  | .f0 i, rest            => .ok (i, rest)
  | .f1 _, []              => .error (.missingOperand 0)
  | .f1 mk, a :: rest      => .ok (mk a, rest)
  | .f2 _, []              => .error (.missingOperand 0)
  | .f2 _, [_]             => .error (.missingOperand 1)
  | .f2 mk, a :: b :: rest => .ok (mk a b, rest)

/-- Decode the instruction at the head of a list of bytes; the answer holds the bytes after it (R70, R74, R102). -/
def decode (m : OpcodeMap) : List Byte → Except DecodeError (Instr × List Byte)
  | [] => .error .noOpcodeByte
  | ir :: rest =>
    match opcodeOf? m ir with
    | none    => .error (.unknownOpcode ir)
    | some op => completeForm op.form rest

/-! ### The encoder -/

/-- The bytes of an instruction at increasing addresses: the opcode byte and then its operands (R70, R71, R76, R77). -/
def encode (m : OpcodeMap) : Instr → List Byte
  | .ldi a b => [m.ldi, a, b]
  | .prn a   => [m.prn, a]
  | .hlt     => [m.hlt]
  | .mul a b => [m.mul, a, b]
  | .add a b => [m.add, a, b]
  | .cmp a b => [m.cmp, a, b]
  | .push a  => [m.push, a]
  | .pop a   => [m.pop, a]
  | .call a  => [m.call, a]
  | .ret     => [m.ret]
  | .jmp a   => [m.jmp, a]
  | .jeq a   => [m.jeq, a]
  | .jne a   => [m.jne, a]

/-! ### The opcode table's words -/

/-- Byte `k` of the word `w` of `nbits` bits, bit 0 of `w` being the least significant bit of the first byte: the bits at
and above `nbits` are 0. -/
def tableByte (nbits w k : Nat) : Byte :=
  BitVec.ofNat 8 ((w % 2 ^ nbits) >>> (8 * k))

/-- The bytes of a table word, up to the longest instruction, three bytes (R74). -/
def tableBytes (nbits w : Nat) : List Byte :=
  [tableByte nbits w 0, tableByte nbits w 1, tableByte nbits w 2]

/-- The instruction the decoder reads from the table word `w` of `nbits` bits, under the default OPCODE_MAP. -/
def decodeTableWord (nbits w : Nat) : Option Instr :=
  match decode defaultConfig.val.opcodes (tableBytes nbits w) with
  | .ok (i, _) => some i
  | .error _   => none

end Sys2Proof
end

