-- ==== Sys2Proof/Machine/State.lean ====
section
/-! DEFINITION. The state of the core as plain data (spec/10_state.md R20 to R38), the reasons a step can stop, and the state
after reset (R38, R240). -/

namespace Sys2Proof.Machine

/-- The number of a general register, R0 to R7 (R20). -/
abbrev RegIx := Fin 8

/-- The execution status; `running` is the source's running flag (R30). -/
inductive Status where
  | idle
  | running
  | halted
  | faulted
  deriving DecidableEq, Repr

/-- fault_kind (R31, R211). -/
inductive FaultKind where
  | none
  | outOfRange
  | unsupportedOperation
  deriving DecidableEq, Repr

/-- fault_op: which access failed (R31, R211). -/
inductive FaultOp where
  | none
  | fetchOpcode
  | fetchOperand
  | registerRead
  | registerWrite
  | stackAdjust
  | returnAddress
  | decode
  deriving DecidableEq, Repr

/-- The fault record (R31). -/
structure FaultRecord where
  kind  : FaultKind
  op    : FaultOp
  /-- The address, register index, opcode byte or attempted SP value that failed: a signed integer. -/
  value : Int
  /-- The pc of the instruction that faulted. -/
  pc    : Pc
  deriving DecidableEq, Repr

/-- The record with every field 0, as after reset (R31, R38). -/
def FaultRecord.zero : FaultRecord := ⟨.none, .none, 0, 0⟩

/-- The memory array: (address, byte) cells, addresses strictly rising and below 256, no cell holding the byte an unlisted
address reads as (`Memory.wf` in Ops.lean; R33, R50). -/
abbrev Memory := List Host.Cell

/-- Everything the spec gives the machine (R38). -/
structure State where
  /-- R0 to R7; register 7 is SP (R20, R21). -/
  regs   : Vector Byte 8
  /-- The program counter (R25, R26). -/
  pc     : Pc
  /-- The flags register FL: E bit 0, G bit 1, L bit 2 (R27). -/
  fl     : Byte
  /-- The execution status (R30). -/
  status : Status
  /-- The fault record (R31). -/
  fault  : FaultRecord
  /-- The bytes PRN has emitted since reset, oldest first (R32). -/
  out    : List Byte
  /-- The memory array (R33). -/
  mem    : Memory
  deriving DecidableEq, Repr

/-- Why a step answers no next state. A fault OF THE CORE (R210) is not among these: it is a next state whose status is
Faulted (R215). -/
inductive Fault where
  /-- Raised by `stepWith` when status is not Running: the engine has no step there (R100, R217). Safe: the model stops
  where the hardware stands still. DESIGN CHOICE: notes/assumptions/3.md. -/
  | notRunning (status : Status)
  deriving DecidableEq, Repr

/-- Why an instruction has no meaning. No arm of `exec` is refused. -/
inductive Refusal where
  /-- The instruction has no meaning in the model. Raised by no arm; safe. -/
  | notModelled (mnemonic : String)
  deriving DecidableEq, Repr

/-- What a step answers. -/
abbrev Result := Host.Outcome State Fault Refusal

/-- The state after Reset (R38, R240): every memory cell 0 (none listed), R0 to R6 zero, SP 0xF4, pc 0, FL 0, Idle, the fault
record 0 and no output. -/
def State.reset : State where
  regs   := #v[0, 0, 0, 0, 0, 0, 0, 0xF4]
  pc     := 0
  fl     := 0
  status := .idle
  fault  := FaultRecord.zero
  out    := []
  mem    := []

end Sys2Proof.Machine
end

