-- ==== Sys2Proof/Machine/Ops.lean ====
section
/-! DEFINITION. The named operations over memory, registers, pc, output and status, and TAKING A FAULT as one shared operation
(spec/20_memory.md, spec/10_state.md, spec/43_stack.md R161, spec/60_exceptions.md R211 to R217).

There is no return from a fault (R217): no instruction leaves Faulted, so no operation stands beside `enterFaulted`. -/

namespace Sys2Proof.Machine

/-! ### Memory -/

/-- What an address reads as when no cell lists it: the reset contents, 0 (R38, R57). -/
def Memory.unlisted : Byte := 0

/-- The byte at an address (R54: reading changes nothing). -/
def Memory.read : Memory → Nat → Byte
  | [], _ => Memory.unlisted
  | (a, v) :: rest, addr => if addr = a then v else Memory.read rest addr

/-- The memory without a cell for `addr`. -/
def Memory.erase (m : Memory) (addr : Nat) : Memory := m.filter (fun c => c.1 ≠ addr)

/-- List the cell `(addr, v)` before the first cell of a higher address. -/
def Memory.insert : Memory → Nat → Byte → Memory
  | [], addr, v => [(addr, v)]
  | (a, w) :: rest, addr, v =>
    if addr < a then (addr, v) :: (a, w) :: rest else (a, w) :: Memory.insert rest addr v

/-- Set the byte at an address (R10 MemWrite), keeping the canonical form: the byte an unlisted address reads as is not
listed. -/
def Memory.write (m : Memory) (addr : Nat) (v : Byte) : Memory :=
  if v = Memory.unlisted then Memory.erase m addr else Memory.insert (Memory.erase m addr) addr v

/-- The canonical form from address `lo` on: addresses rise strictly and stay below 256, no cell is `unlisted`. -/
def Memory.wfFrom : Nat → Memory → Bool
  | _, [] => true
  | lo, (a, v) :: rest => decide (lo ≤ a) && decide (a < 256) && (v != Memory.unlisted) && Memory.wfFrom (a + 1) rest

/-- The canonical form of the memory array: equal memories are equal lists. -/
def Memory.wf (m : Memory) : Bool := Memory.wfFrom 0 m

/-! ### Registers -/

/-- The index of the stack pointer (R7, R21). -/
abbrev spIx : RegIx := 7

/-- `x[i]` (R10): no register is hardwired (R20). -/
def State.reg (s : State) (i : RegIx) : Byte := s.regs[i]

/-- `x[i] <- v` (R10). -/
def State.setReg (s : State) (i : RegIx) (v : Byte) : State := { s with regs := s.regs.set i v }

/-- SP, another name for `x[7]` (R21). -/
def State.sp (s : State) : Byte := s.reg spIx

/-! ### pc, output, status -/

/-- `pc <- pc + n`, not reduced modulo 256 (R107). -/
def State.advancePc (s : State) (n : Nat) : State := { s with pc := s.pc + BitVec.ofNat 9 n }

/-- `pc <- v` for a byte: every jump, call and return target is 0 to 255 (R180). -/
def State.jumpTo (s : State) (v : Byte) : State := { s with pc := v.setWidth 9 }

/-- `Emit(v)`: append a byte to the output stream (R32, R124). -/
def State.emit (s : State) (v : Byte) : State := { s with out := s.out ++ [v] }

/-- `FL <- v` (R10, R27). -/
def State.setFl (s : State) (v : Byte) : State := { s with fl := v }

/-- `status <- v` (R10, R30). -/
def State.setStatus (s : State) (v : Status) : State := { s with status := v }

/-- The source's running flag (R30). -/
def State.running (s : State) : Bool := decide (s.status = .running)

/-- The byte at an 8-bit address: in range whatever the address is (R52). -/
def State.loadByte (s : State) (addr : Byte) : Byte := Memory.read s.mem addr.toNat

/-- Set the byte at an 8-bit address: in range whatever the address is (R52). -/
def State.storeByte (s : State) (addr v : Byte) : State := { s with mem := Memory.write s.mem addr.toNat v }

/-! ### Taking a fault -/

/-- The fault_kind of a fault_op (R211). -/
def FaultOp.kind : FaultOp → FaultKind
  | .none => .none
  | .fetchOpcode | .fetchOperand | .registerRead | .registerWrite | .stackAdjust | .returnAddress => .outOfRange
  | .decode => .unsupportedOperation

/-- Fault entry (R215): status becomes Faulted and the record is written, its pc the pc of the faulting instruction; nothing
else changes, there is no vector and nothing is saved. -/
def State.enterFaulted (s : State) (op : FaultOp) (value : Int) : State :=
  { s with status := .faulted, fault := ⟨op.kind, op, value, s.pc⟩ }

/-- `raise E(info)` (R10): the step ends in Faulted. `s` is the state the step began in, so that the step commits none of its
writes (R214). -/
def raise (s : State) (op : FaultOp) (value : Int) : Result := .next (s.enterFaulted op value)

/-! ### Checked accesses -/

/-- `MemRead(addr, 1)` at an address that may be out of range (R10, R52): go on with the byte, or raise OutOfRange with the
access and the address. -/
def readChecked (s : State) (op : FaultOp) (addr : Nat) (k : Byte → Result) : Result :=
  if addr ≤ 255 then k (Memory.read s.mem addr) else raise s op addr

/-- `SP <- SP - 1` of PUSH and CALL (R161): not reduced modulo 256; with SP = 0 it raises OutOfRange(stack-adjust, -1). -/
def decrementSp (s : State) (k : State → Result) : Result :=
  if s.sp = 0 then raise s .stackAdjust (-1) else k (s.setReg spIx (s.sp - 1))

/-- `SP <- SP + 1` of POP and RET in the working state `w` (R161): with SP = 255 it raises OutOfRange(stack-adjust, 256) in
the state `s` the step began in (R214). -/
def incrementSp (s w : State) (k : State → Result) : Result :=
  if w.sp = 255 then raise s .stackAdjust 256 else k (w.setReg spIx (w.sp + 1))

/-- The return address of CALL, pc + 2, as a byte (R182): one that does not fit a memory byte raises
OutOfRange(return-address). -/
def withReturnAddress (s : State) (k : Byte → Result) : Result :=
  if s.pc.toNat + 2 ≤ 255 then k (BitVec.ofNat 8 (s.pc.toNat + 2)) else raise s .returnAddress (s.pc.toNat + 2 : Nat)

end Sys2Proof.Machine
end

