-- ==== Sys2Proof/Machine/Flags.lean ====
section
/-! DEFINITION. The flags register FL (spec/10_state.md R27, R28) and the one flag computation, that of CMP
(spec/42_alu.md R141, R146). -/

namespace Sys2Proof.Machine

/-- E, bit 0: the last CMP found its operands equal (R27). -/
def flagE (fl : Byte) : Bool := fl.getLsbD 0

/-- G, bit 1: the last CMP found the first operand greater (R27). -/
def flagG (fl : Byte) : Bool := fl.getLsbD 1

/-- L, bit 2: the last CMP found the first operand less (R27). -/
def flagL (fl : Byte) : Bool := fl.getLsbD 2

/-- What CMP writes to FL: E, G or L alone, comparing as unsigned integers (R141, R146). The bit places are
UNVERIFIED: the spec takes them from general knowledge (D8, G4); notes/assumptions/6.md. -/
def compareFlags (x y : Byte) : Byte :=
  if x.toNat = y.toNat then 0x01 else if y.toNat < x.toNat then 0x02 else 0x04

end Sys2Proof.Machine
end

