-- ==== Sys2Proof/Machine/Operands.lean ====
section
/-! DEFINITION. The operand forms of spec/30_encoding.md R77, R78: a register index read, a register index written, an
immediate. There are no others. -/

namespace Sys2Proof.Machine

/-- The register an operand byte names: the whole byte is the index, and 8 to 255 name none (R24, R78). -/
def registerIndex? (a : Byte) : Option RegIx := if h : a.toNat < 8 then some ⟨a.toNat, h⟩ else none

/-- The operand byte that names a register. -/
def regByte (i : RegIx) : Byte := BitVec.ofNat 8 i.val

/-- Check a register index at its access (R24): go on with the register, or raise OutOfRange with the access and the index. -/
def withRegister (s : State) (op : FaultOp) (a : Byte) (k : RegIx → Result) : Result :=
  match registerIndex? a with
  | some i => k i
  | none   => raise s op a.toNat

/-- A register operand the instruction reads, or reads and writes: an index above 7 is OutOfRange(register-read) (R212). -/
def withReadOperand (s : State) (a : Byte) (k : RegIx → Result) : Result := withRegister s .registerRead a k

/-- A register operand the instruction only writes: an index above 7 is OutOfRange(register-write) (R212). -/
def withWriteOperand (s : State) (a : Byte) (k : RegIx → Result) : Result := withRegister s .registerWrite a k

/-- An immediate is the operand byte itself, with no extension or scaling (R78). -/
def immediate (b : Byte) : Byte := b

end Sys2Proof.Machine
end

