-- ==== Sys2Proof/Machine/Alu.lean ====
section
/-! DEFINITION. The ALU and MUL, ADD, CMP (spec/42_alu.md). -/

namespace Sys2Proof.Machine

/-- add(x, y) = (x + y) mod 256; the carry is recorded nowhere (R141). -/
def aluAdd (x y : Byte) : Byte := BitVec.ofNat 8 (x.toNat + y.toNat)

/-- mul(x, y) = (x * y) mod 256, the low 8 bits of the product (R141). -/
def aluMul (x y : Byte) : Byte := BitVec.ofNat 8 (x.toNat * y.toNat)

/-- MUL a, b: `x[a] <- (x[a] * x[b]) mod 256`, pc + 3 (R142, R107). -/
def execMul (a b : Byte) (s : State) : Result :=
  withReadOperand s a fun i => withReadOperand s b fun j =>
    .next ((s.setReg i (aluMul (s.reg i) (s.reg j))).advancePc 3)

/-- ADD a, b: `x[a] <- (x[a] + x[b]) mod 256`, pc + 3 (R144, R107). -/
def execAdd (a b : Byte) (s : State) : Result :=
  withReadOperand s a fun i => withReadOperand s b fun j =>
    .next ((s.setReg i (aluAdd (s.reg i) (s.reg j))).advancePc 3)

/-- CMP a, b: FL becomes E, G or L of `x[a]` against `x[b]`, pc + 3 (R146, R107). -/
def execCmp (a b : Byte) (s : State) : Result :=
  withReadOperand s a fun i => withReadOperand s b fun j =>
    .next ((s.setFl (compareFlags (s.reg i) (s.reg j))).advancePc 3)

end Sys2Proof.Machine
end

