-- ==== Sys2Proof/Machine/Control.lean ====
section
/-! DEFINITION. CALL, RET, JMP, JEQ and JNE (spec/44_control.md): each writes pc itself (R108). -/

namespace Sys2Proof.Machine

/-- CALL a: `SP <- SP - 1; mem[SP] <- pc + 2; pc <- x[a]` (R182). `x[a]` is read after SP is decremented (D9). -/
def execCall (a : Byte) (s : State) : Result :=
  withReadOperand s a fun i => decrementSp s fun w => withReturnAddress s fun ret =>
    .next ((w.storeByte w.sp ret).jumpTo (w.reg i))

/-- RET: `pc <- mem[SP]; SP <- SP + 1` (R184). -/
def execRet (s : State) : Result :=
  incrementSp s s fun w => .next (w.jumpTo (s.loadByte s.sp))

/-- JMP a: `pc <- x[a]` (R186). -/
def execJmp (a : Byte) (s : State) : Result :=
  withReadOperand s a fun i => .next (s.jumpTo (s.reg i))

/-- JEQ a: `pc <- x[a]` if E is set, else `pc <- pc + 2`; the register is accessed only when the jump is taken (R188, D16). -/
def execJeq (a : Byte) (s : State) : Result :=
  if flagE s.fl then withReadOperand s a fun i => .next (s.jumpTo (s.reg i)) else .next (s.advancePc 2)

/-- JNE a: `pc <- x[a]` if E is clear, else `pc <- pc + 2`; the register is accessed only when the jump is taken (R190, D16). -/
def execJne (a : Byte) (s : State) : Result :=
  if flagE s.fl then .next (s.advancePc 2) else withReadOperand s a fun i => .next (s.jumpTo (s.reg i))

end Sys2Proof.Machine
end

