-- ==== Sys2Proof/Machine/LoadPrintHalt.lean ====
section
/-! DEFINITION. LDI, PRN and HLT (spec/41_load_print_halt.md). -/

namespace Sys2Proof.Machine

/-- LDI a, b: `x[a] <- b`, pc + 3 (R120, R107). -/
def execLdi (a b : Byte) (s : State) : Result :=
  withWriteOperand s a fun i => .next ((s.setReg i (immediate b)).advancePc 3)

/-- PRN a: `Emit(x[a])`, pc + 2 (R122, R124, R107). -/
def execPrn (a : Byte) (s : State) : Result :=
  withReadOperand s a fun i => .next ((s.emit (s.reg i)).advancePc 2)

/-- HLT: `status <- Halted`, pc + 1 (R126, R107). -/
def execHlt (s : State) : Result := .next ((s.setStatus .halted).advancePc 1)

end Sys2Proof.Machine
end

