-- ==== Sys2Proof/Machine/Stack.lean ====
section
/-! DEFINITION. PUSH and POP (spec/43_stack.md). The statements of an effect run left to right (R11, D9;
notes/assumptions/7.md), and the index check comes before the stack check (R216). -/

namespace Sys2Proof.Machine

/-- PUSH a: `SP <- SP - 1; mem[SP] <- x[a]`, pc + 2 (R162). `x[a]` is read after SP is decremented. -/
def execPush (a : Byte) (s : State) : Result :=
  withReadOperand s a fun i => decrementSp s fun w =>
    .next ((w.storeByte w.sp (w.reg i)).advancePc 2)

/-- POP a: `x[a] <- mem[SP]; SP <- SP + 1`, pc + 2 (R164). The SP incremented is the one the first statement left. -/
def execPop (a : Byte) (s : State) : Result :=
  withWriteOperand s a fun i => incrementSp s (s.setReg i (s.loadByte s.sp)) fun w =>
    .next (w.advancePc 2)

end Sys2Proof.Machine
end

