-- ==== Sys2Proof/Machine/Cycle.lean ====
section
/-! DEFINITION. The fetch-decode-execute cycle (spec/40_cycle.md R100 to R106), and where a table word is placed so that the
cycle fetches it. Step.lean only calls what stands here. -/

namespace Sys2Proof.Machine

/-- Fetch the operand bytes a known opcode still needs, a before b, and run the instruction (R105, R106). No byte beyond the
instruction is fetched. -/
def fetchOperandsAndRun (s : State) : Form → Result
  | .f0 i  => exec i s
  | .f1 mk => readChecked s .fetchOperand (s.pc.toNat + 1) fun a => exec (mk a) s
  | .f2 mk =>
    readChecked s .fetchOperand (s.pc.toNat + 1) fun a =>
      readChecked s .fetchOperand (s.pc.toNat + 2) fun b => exec (mk a b) s

/-- An unknown opcode byte (R80): the fault UnsupportedOperation (R103), or nothing but the PC advance the byte's own AA and C
bits give (R104). With C set, pc stays, and the next step is the same again. -/
def runUnknown (policy : UnknownOpcodePolicy) (ir : Byte) (s : State) : Result :=
  match policy with
  | .fault => raise s .decode ir.toNat
  | .skip  => .next (if cField ir then s else s.advancePc (1 + aaField ir))

/-- One step of the engine while it is Running (R100). -/
def engineStep (c : LegalConfig) (s : State) : Result :=
  readChecked s .fetchOpcode s.pc.toNat fun ir =>
    match opcodeOf? c.val.opcodes ir with
    | some op => fetchOperandsAndRun s op.form
    | none    => runUnknown c.val.policy ir s

/-- The engine has a step only while status is Running (R100). -/
def cycle (c : LegalConfig) (s : State) : Result :=
  match s.status with
  | .running => engineStep c s
  | .idle    => .fault (.notRunning .idle)
  | .halted  => .fault (.notRunning .halted)
  | .faulted => .fault (.notRunning .faulted)

/-- Write bytes to consecutive addresses; an address above 255 has no cell, so a byte there is not written. -/
def placeBytes : Nat → List Byte → Memory → Memory
  | _, [], m => m
  | addr, v :: vs, m => placeBytes (addr + 1) vs (if addr ≤ 255 then Memory.write m addr v else m)

/-- The state with a table word's bytes at pc and the engine Running: the host's load and Start (R243, R246) for one
instruction; notes/assumptions/4.md. -/
def placeWord (s : State) (nbits w : Nat) : State :=
  { s with status := .running, mem := placeBytes s.pc.toNat (tableBytes nbits w) s.mem }

end Sys2Proof.Machine
end

