-- ==== Sys2Proof/Machine/Step.lean ====
section
/-! DEFINITION. The step (spec/40_cycle.md R100): three outcomes, next, fault, refusal. Every definition here is one call of one
in Cycle.lean. -/

namespace Sys2Proof.Machine

/-- One step under a configuration (R7, R36). -/
def stepWith (c : LegalConfig) (s : State) : Host.Outcome State Fault Refusal := cycle c s

/-- One step under the default configuration (R7). -/
def step (s : State) : Host.Outcome State Fault Refusal := stepWith defaultConfig s

/-- `s` with the table word `w` of `nbits` bits stored where the next step fetches, and the engine started. -/
def State.withFetchWord (s : State) (nbits w : Nat) : State := placeWord s nbits w

end Sys2Proof.Machine
end

