-- ==== Sys2Proof/Machine/HostPort.lean ====
section
/-! DEFINITION. The host access port, the status outputs and the trace port (spec/10_state.md R40 to R43,
spec/60_exceptions.md R218, R232, spec/70_reset_and_hazards.md R244, R254). The host acts between steps, so its operations are
functions beside the step: notes/assumptions/12.md. -/

namespace Sys2Proof.Machine

/-! ### Status outputs -/

/-- The 2-bit code of a status (R30). -/
def Status.code : Status → BitVec 2
  | .idle    => 0
  | .running => 1
  | .halted  => 2
  | .faulted => 3

/-- The 2-bit code of a fault_kind (R211). -/
def FaultKind.code : FaultKind → BitVec 2
  | .none                 => 0
  | .outOfRange           => 1
  | .unsupportedOperation => 2

/-- The 3-bit code of a fault_op (R211). -/
def FaultOp.code : FaultOp → BitVec 3
  | .none          => 0
  | .fetchOpcode   => 1
  | .fetchOperand  => 2
  | .registerRead  => 3
  | .registerWrite => 4
  | .stackAdjust   => 5
  | .returnAddress => 6
  | .decode        => 7

/-- What the core presents to the host at every moment (R43), in the codes of R30 and R211. -/
structure StatusOutputs where
  status     : BitVec 2
  pc         : Pc
  fl         : Byte
  faultKind  : BitVec 2
  faultOp    : BitVec 3
  faultValue : Int
  faultPc    : Pc
  deriving DecidableEq, Repr

/-- The status outputs of a state (R43). -/
def State.statusOutputs (s : State) : StatusOutputs where
  status     := s.status.code
  pc         := s.pc
  fl         := s.fl
  faultKind  := s.fault.kind.code
  faultOp    := s.fault.op.code
  faultValue := s.fault.value
  faultPc    := s.fault.pc

/-! ### The output port -/

/-- The line the host prints for a byte PRN emitted: its decimal value (R42, R124). Formatting is the host's, not the core's
(R5). -/
def printedLine (v : Byte) : List Char := Nat.toDigits 10 v.toNat

/-! ### The host access port -/

/-- The seven operations of the host access port (R40). Addresses and indices are any natural number. -/
inductive HostOp where
  | read (addr : Nat)
  | write (addr : Nat) (v : Byte)
  | getReg (i : Nat)
  | setReg (i : Nat) (v : Byte)
  | getStatus
  | reset
  | start
  deriving DecidableEq, Repr

/-- What the port answers. -/
inductive HostReply where
  /-- HostRead and HostGetReg: the byte. -/
  | byte (v : Byte)
  /-- HostGetStatus: the status outputs. -/
  | status (o : StatusOutputs)
  /-- HostWrite, HostSetReg, Reset, Start: done. -/
  | done
  /-- The error response OutOfRange(n): it changes neither status nor the fault record (R40, R218). -/
  | outOfRange (n : Nat)
  /-- Offered while Running: refused with no effect (R41). -/
  | refused
  /-- Start in Halted or Faulted: ignored (R40, R244, U12). -/
  | ignored
  deriving DecidableEq, Repr

/-- HostRead(addr) (R40). -/
def hostRead (addr : Nat) (s : State) : HostReply × State :=
  if addr ≤ 255 then (.byte (Memory.read s.mem addr), s) else (.outOfRange addr, s)

/-- HostWrite(addr, v) (R40). -/
def hostWrite (addr : Nat) (v : Byte) (s : State) : HostReply × State :=
  if addr ≤ 255 then (.done, { s with mem := Memory.write s.mem addr v }) else (.outOfRange addr, s)

/-- HostGetReg(i) (R40). -/
def hostGetReg (i : Nat) (s : State) : HostReply × State :=
  if h : i < 8 then (.byte (s.reg ⟨i, h⟩), s) else (.outOfRange i, s)

/-- HostSetReg(i, v) (R40). -/
def hostSetReg (i : Nat) (v : Byte) (s : State) : HostReply × State :=
  if h : i < 8 then (.done, s.setReg ⟨i, h⟩ v) else (.outOfRange i, s)

/-- Start() (R244): Idle becomes Running; in any other status it does nothing. -/
def hostStart (s : State) : HostReply × State :=
  match s.status with
  | .idle => (.done, s.setStatus .running)
  | .running | .halted | .faulted => (.ignored, s)

/-- An operation accepted only while the engine is not running (R41). -/
def whileNotRunning (s : State) (r : HostReply × State) : HostReply × State :=
  if s.running then (.refused, s) else r

/-- One operation of the host, between two steps (R40, R41). Reset and HostGetStatus are accepted in every status (R240). -/
def hostOp (op : HostOp) (s : State) : HostReply × State :=
  match op with
  | .read addr    => whileNotRunning s (hostRead addr s)
  | .write addr v => whileNotRunning s (hostWrite addr v s)
  | .getReg i     => whileNotRunning s (hostGetReg i s)
  | .setReg i v   => whileNotRunning s (hostSetReg i v s)
  | .getStatus    => (.status s.statusOutputs, s)
  | .reset        => (.done, State.reset)
  | .start        => whileNotRunning s (hostStart s)

/-! ### The trace port -/

/-- What the trace port presents before a step (R232). -/
structure TraceRecord where
  pc   : Pc
  /-- The bytes at pc, pc + 1 and pc + 2; none where the address is above 255. -/
  b0   : Option Byte
  b1   : Option Byte
  b2   : Option Byte
  regs : Vector Byte 8
  deriving DecidableEq, Repr

/-- The byte the trace port shows at an address: absent above 255, never a fault (R232). -/
def traceByte (s : State) (addr : Nat) : Option Byte :=
  if addr ≤ 255 then some (Memory.read s.mem addr) else none

/-- The trace of a state: it reads and changes nothing (R232). -/
def State.trace (s : State) : TraceRecord where
  pc   := s.pc
  b0   := traceByte s s.pc.toNat
  b1   := traceByte s (s.pc.toNat + 1)
  b2   := traceByte s (s.pc.toNat + 2)
  regs := s.regs

/-- A step with the trace port enabled or not: what it presents, and the step (R232). A step that is not taken presents
nothing. -/
def tracedStep (enabled : Bool) (c : LegalConfig) (s : State) : Option TraceRecord × Result :=
  (if enabled && s.running then some s.trace else none, stepWith c s)

end Sys2Proof.Machine
end

