-- ==== Sys2Proof/Machine/Loader.lean ====
section
/-! DEFINITION. The host-side loader and the boot order (spec/70_reset_and_hazards.md R243, R246 to R248). The scope file leaves
program loading out of the core (R5); it acts on the core through the host port alone. Text is a list of lines, each a list of
characters. What the rules leave open is in notes/assumptions/14.md. -/

namespace Sys2Proof.Machine

/-- A line without the white space around it (R247, D23). -/
def trim (l : List Char) : List Char :=
  ((l.dropWhile Char.isWhitespace).reverse.dropWhile Char.isWhitespace).reverse

/-- What a line of a program file holds. -/
inductive FileLine where
  /-- Blank or comment only: ignored (R247). -/
  | blank
  /-- A significant line that is an 8-character binary string (R247). -/
  | byte (v : Byte)
  /-- Any other significant line (R248). -/
  | malformed
  deriving DecidableEq, Repr

/-- The value of a string of binary digits read from the left, on top of `acc`; none where a character is no binary digit. -/
def binaryValue? : Nat → List Char → Option Nat
  | acc, [] => some acc
  | acc, c :: cs => if c = '0' then binaryValue? (2 * acc) cs else if c = '1' then binaryValue? (2 * acc + 1) cs else none

/-- The token of a line: the text before `#`, trimmed (R247, D23). -/
def lineToken (line : List Char) : List Char := trim (line.takeWhile (fun c => c ≠ '#'))

/-- Read one line of a program file (R247, R248). -/
def readFileLine (line : List Char) : FileLine :=
  match lineToken line with
  | [] => .blank
  | tok =>
    if tok.length = 8 then
      match binaryValue? 0 tok with
      | some n => .byte (BitVec.ofNat 8 n)
      | none   => .malformed
    else .malformed

/-- Why a load is aborted: Start is then not issued (R248). -/
inductive LoadError where
  /-- LoadError: the line, counted from 1, is no binary token. -/
  | malformedLine (line : Nat)
  /-- A HostWrite answered OutOfRange: the program has more than 256 significant lines. -/
  | outOfRange (addr : Nat)
  /-- The port refused the write: the engine was Running (R41). -/
  | refused
  deriving DecidableEq, Repr

/-- Write one byte through the port, and go on unless the port answers an error. -/
def loadByteAt (addr : Nat) (v : Byte) (s : State) (k : State → Option LoadError × State) : Option LoadError × State :=
  match hostOp (.write addr v) s with
  | (.done, t)         => k t
  | (.outOfRange n, t) => (some (.outOfRange n), t)
  | (_, t)             => (some .refused, t)

/-- The loader's contract: the program's bytes go to consecutive addresses through HostWrite (R246). -/
def loadBytes : Nat → List Byte → State → Option LoadError × State
  | _, [], s => (none, s)
  | addr, v :: vs, s => loadByteAt addr v s (loadBytes (addr + 1) vs)

/-- Load a program file, line by line: `n` is the number of the next line, `addr` the next address (R247, R248). -/
def loadLines (n addr : Nat) : List (List Char) → State → Option LoadError × State
  | [], s => (none, s)
  | l :: ls, s =>
    match readFileLine l with
    | .blank     => loadLines (n + 1) addr ls s
    | .malformed => (some (.malformedLine n), s)
    | .byte v    => loadByteAt addr v s (loadLines (n + 1) (addr + 1) ls)

/-- Start, unless the load was aborted (R243, R248). -/
def startLoaded : Option LoadError × State → Option LoadError × State
  | (none, s)   => (none, (hostOp .start s).2)
  | (some e, s) => (some e, s)

/-- The boot order, from a program file: Reset, Load, Start (R243). -/
def bootFile (lines : List (List Char)) (s : State) : Option LoadError × State :=
  startLoaded (loadLines 1 0 lines (hostOp .reset s).2)

/-- The boot order, from the program's bytes: Reset, Load, Start (R243). -/
def bootBytes (program : List Byte) (s : State) : Option LoadError × State :=
  startLoaded (loadBytes 0 program (hostOp .reset s).2)

/-- A byte as the line of a program file that stands for it: eight binary digits, bit 7 first (R247). -/
def binaryLine (v : Byte) : List Char :=
  [7, 6, 5, 4, 3, 2, 1, 0].map fun i => if v.getLsbD i then '1' else '0'

end Sys2Proof.Machine
end

