-- ==== Sys2Proof/Safety.lean ====
section
/-! DEFINITION. What claims about the core are stated in: the legal states (an invariant), reachable states, runs and their
results (spec/40_cycle.md R110, R111), which fault a step raises (spec/60_exceptions.md R212, R213, R216), and the words for what
a step leaves unchanged. -/

namespace Sys2Proof.Machine

/-! ### Legal states -/

/-- The legal values of FL: 0 (no comparison yet), E, G or L alone (R27). -/
def legalFlags (fl : Byte) : Prop := fl = 0x00 ∨ fl = 0x01 ∨ fl = 0x02 ∨ fl = 0x04

/-- The fault_value and fault_pc that go with a fault_op in the table of R211. -/
def legalFaultValue (r : FaultRecord) : Prop :=
  match r.op with
  | .none          => r.value = 0 ∧ r.pc = 0
  | .fetchOpcode   => r.value = r.pc.toNat ∧ 256 ≤ r.value ∧ r.value ≤ 259
  | .fetchOperand  => (r.value = 256 ∨ r.value = 257) ∧ r.pc.toNat ≤ 255
  | .registerRead  => 8 ≤ r.value ∧ r.value ≤ 255 ∧ r.pc.toNat ≤ 254
  | .registerWrite => 8 ≤ r.value ∧ r.value ≤ 255 ∧ r.pc.toNat ≤ 254
  | .stackAdjust   => (r.value = -1 ∨ r.value = 256) ∧ r.pc.toNat ≤ 255
  | .returnAddress => r.value = 256 ∧ r.pc = 254
  | .decode        => 0 ≤ r.value ∧ r.value ≤ 255 ∧ r.pc.toNat ≤ 255

/-- The fault record says what the status says: all zero unless Faulted (R31, R38), and after a fault a row of R211 with the pc
of the faulting instruction (R215). -/
def legalFaultRecord (s : State) : Prop :=
  if s.status = .faulted then
    s.fault.op ≠ .none ∧ s.fault.kind = s.fault.op.kind ∧ s.fault.pc = s.pc ∧ legalFaultValue s.fault
  else s.fault = FaultRecord.zero

/-- The invariant of the core: memory is in canonical form (R33), FL is legal (R27), pc is at most 259 (R26) and the fault
record is legal (R31, R211). -/
def State.Inv (s : State) : Prop :=
  Memory.wf s.mem = true ∧ legalFlags s.fl ∧ s.pc.toNat ≤ 259 ∧ legalFaultRecord s

/-! ### Runs -/

/-- The states reached from reset by steps of the engine and operations of the host, in any order (R6, R254). -/
inductive Reachable (c : LegalConfig) : State → Prop where
  | reset : Reachable c State.reset
  | engine (s t : State) : Reachable c s → stepWith c s = .next t → Reachable c t
  | host (op : HostOp) (s : State) : Reachable c s → Reachable c (hostOp op s).2

/-- `k` steps under a configuration (R110). -/
def runWith (c : LegalConfig) : Nat → State → Result
  | 0, s => .next s
  | k + 1, s =>
    match stepWith c s with
    | .next t    => runWith c k t
    | .fault r   => .fault r
    | .refused r => .refused r

/-- A run from `s` that is final in `t`: it ends by HLT (R111). -/
def RunHaltsIn (c : LegalConfig) (s t : State) : Prop := ∃ k, runWith c k s = .next t ∧ t.status = .halted

/-- A run from `s` that ends by a fault, in `t` (R110, R111). -/
def RunFaultsIn (c : LegalConfig) (s t : State) : Prop := ∃ k, runWith c k s = .next t ∧ t.status = .faulted

/-- A run from `s` that never ends (R110). -/
def RunsForever (c : LegalConfig) (s : State) : Prop := ∀ k, ∃ t, runWith c k s = .next t ∧ t.status = .running

/-- A run from `s` is safe: no step of it raises a fault (R111: a Faulted state refutes any claim that the run succeeds). -/
def SafeRun (c : LegalConfig) (s : State) : Prop := ¬ ∃ t, RunFaultsIn c s t

/-- The result of a final run (R111): the output stream with memory, registers, pc and FL. -/
structure RunResult where
  out  : List Byte
  mem  : Memory
  regs : Vector Byte 8
  pc   : Pc
  fl   : Byte
  deriving DecidableEq, Repr

/-- The result held in a final state (R111). -/
def State.result (s : State) : RunResult := ⟨s.out, s.mem, s.regs, s.pc, s.fl⟩

/-! ### What a step leaves unchanged -/

/-- Every register but those listed is the same. -/
def sameRegsBut (l : List RegIx) (s t : State) : Prop := ∀ i, i ∉ l → t.reg i = s.reg i

/-- Every byte of memory but those at the listed addresses reads the same. -/
def sameMemoryBut (l : List Nat) (s t : State) : Prop := ∀ addr, addr ∉ l → Memory.read t.mem addr = Memory.read s.mem addr

/-- Status and fault record are the same. -/
def sameStatus (s t : State) : Prop := t.status = s.status ∧ t.fault = s.fault

/-! ### Which fault a step raises -/

/-- The opcodes that read the register their operand a names (R22, R212); JEQ and JNE only when they are taken. -/
def readsFirst (fl : Byte) : Opcode → Bool
  | .prn | .mul | .add | .cmp | .push | .call | .jmp => true
  | .jeq => flagE fl
  | .jne => !flagE fl
  | .ldi | .hlt | .pop | .ret => false

/-- The opcodes that only write the register their operand a names (R22, R212). -/
def writesFirst : Opcode → Bool
  | .ldi | .pop => true
  | .prn | .hlt | .mul | .add | .cmp | .push | .call | .ret | .jmp | .jeq | .jne => false

/-- The opcodes that read the register their operand b names (R22, R212). -/
def readsSecond : Opcode → Bool
  | .mul | .add | .cmp => true
  | .ldi | .prn | .hlt | .push | .pop | .call | .ret | .jmp | .jeq | .jne => false

/-- A cause of a fault: whether it applies, and what the fault record then holds. -/
abbrev Cause := Bool × FaultOp × Int

/-- The causes in the operands and effect of a known opcode, in the order 4 to 6 of R216. -/
def effectCauses (s : State) (op : Opcode) (a b : Byte) : List Cause :=
  let sp := s.regs[7]
  let popped := Memory.read s.mem sp.toNat
  [ (readsFirst s.fl op && decide (8 ≤ a.toNat), .registerRead, a.toNat),
    (writesFirst op && decide (8 ≤ a.toNat), .registerWrite, a.toNat),
    (readsSecond op && decide (8 ≤ b.toNat), .registerRead, b.toNat),
    ((op == .push || op == .call) && decide (sp.toNat = 0), .stackAdjust, -1),
    (op == .ret && decide (sp.toNat = 255), .stackAdjust, 256),
    (op == .pop && decide ((if a.toNat = 7 then popped else sp).toNat = 255), .stackAdjust, 256),
    (op == .call && decide (255 < s.pc.toNat + 2), .returnAddress, s.pc.toNat + 2) ]

/-- The causes of a step in the order of R216, read off the rows of R212 and R213. -/
def faultCauses (c : LegalConfig) (s : State) : List Cause :=
  let pc := s.pc.toNat
  let ir := Memory.read s.mem pc
  (decide (255 < pc), .fetchOpcode, (pc : Int)) ::
  match opcodeOf? c.val.opcodes ir with
  | none => [(decide (c.val.policy = .fault), .decode, (ir.toNat : Int))]
  | some op =>
    [ (decide (1 ≤ op.operandCount) && decide (255 < pc + 1), .fetchOperand, (pc : Int) + 1),
      (decide (2 ≤ op.operandCount) && decide (255 < pc + 2), .fetchOperand, (pc : Int) + 2) ]
    ++ effectCauses s op (Memory.read s.mem (pc + 1)) (Memory.read s.mem (pc + 2))

/-- The first cause that applies to a step, if one does (R216): fault_op and fault_value. -/
def firstFault (c : LegalConfig) (s : State) : Option (FaultOp × Int) :=
  ((faultCauses c s).find? (fun x => x.1)).map (fun x => x.2)

/-- The answer `r` of a step that began in `s` is fault entry: a next state that is Faulted, with this fault record (R215).
It says nothing of registers or memory after the fault (R111). -/
def FaultsWith (s : State) (r : Result) (kind : FaultKind) (op : FaultOp) (value : Int) : Prop :=
  ∃ t, r = .next t ∧ t.status = .faulted ∧ t.fault = ⟨kind, op, value, s.pc⟩

/-! ### What an instruction may write, and where pc goes -/

/-- The registers an instruction writes (R22). -/
def mayWrite (i : Instr) (r : RegIx) : Prop :=
  match i with
  | .ldi a _ | .mul a _ | .add a _ => a.toNat = r.val
  | .pop a => a.toNat = r.val ∨ r = 7
  | .push _ | .call _ | .ret => r = 7
  | .prn _ | .hlt | .cmp _ _ | .jmp _ | .jeq _ | .jne _ => False

/-- The register a byte names in a state where SP has just been given the value `sp`; 0 where it names none (used only where the
step does not fault). -/
def regOr (s : State) (sp : Byte) (a : Byte) : Byte :=
  if h : a.toNat < 8 then (if a.toNat = 7 then sp else s.reg ⟨a.toNat, h⟩) else 0

/-- pc after a step that completes (R109). -/
def nextPc (i : Instr) (s : State) : Pc :=
  match i with
  | .ldi _ _ | .mul _ _ | .add _ _ | .cmp _ _ => s.pc + 3
  | .prn _ | .push _ | .pop _ => s.pc + 2
  | .hlt => s.pc + 1
  | .call a => (regOr s (s.sp - 1) a).setWidth 9
  | .ret => (Memory.read s.mem s.sp.toNat).setWidth 9
  | .jmp a => (regOr s s.sp a).setWidth 9
  | .jeq a => if flagE s.fl then (regOr s s.sp a).setWidth 9 else s.pc + 2
  | .jne a => if flagE s.fl then s.pc + 2 else (regOr s s.sp a).setWidth 9

/-- The bytes at the program counter: those of memory from pc up to address 255, in order. -/
def bytesFromPc (s : State) : List Byte :=
  (List.range' s.pc.toNat (256 - s.pc.toNat)).map (Memory.read s.mem)

/-- The answer of a step with a change made to its next state. -/
def mapNext (g : State → State) : Result → Result
  | .next t    => .next (g t)
  | .fault r   => .fault r
  | .refused r => .refused r

end Sys2Proof.Machine
end

