-- ==== Sys2Proof/Certificates/Slice0/Obligations.lean ====
section
/-! DEFINITION. The statements about the core, one `def Obligations.<Name> : Prop` each. A register operand is written
`regByte i`, the operand byte that names register `i`; the forms whose byte names no register have their own statement
(`RegisterIndexAboveSevenFaults`). A statement about every state holds in states no run reaches. -/

open Sys2Proof Sys2Proof.Machine

/-! ### Encoding -/

/-- Decoding the encoding of any instruction, with every value of its operand bytes, gives the instruction back and leaves what
follows, under every legal OPCODE_MAP (30_encoding.md R70, R71, R76 to R79). -/
def Obligations.DecodeOfEncodeIsTheInstruction : Prop :=
  ∀ (c : LegalConfig) (i : Instr) (rest : List Byte),
    decode c.val.opcodes (encode c.val.opcodes i ++ rest) = .ok (i, rest)

/-- Each list of bytes has one reading: what decodes to an instruction is that instruction's encoding and what follows, under
every OPCODE_MAP (30_encoding.md R70, R81). -/
def Obligations.EncodeOfDecodeIsTheBytes : Prop :=
  ∀ (m : OpcodeMap) (bytes : List Byte) (i : Instr) (rest : List Byte),
    decode m bytes = .ok (i, rest) → bytes = encode m i ++ rest

/-- Words written out bit by bit from the encodings of opcode_table.json, one for each row, decode to the row's instruction
under the default map. The opcode bytes are the default OPCODE_MAP of R76, which the spec takes from general knowledge (D1, G2;
notes/assumptions/1.md). -/
def Obligations.WordsWrittenFromTheTableDecode : Prop :=
  let m := defaultConfig.val.opcodes
  decode m [0b10000010, 0b00000011, 0b11111111] = .ok (.ldi 3 255, []) ∧
  decode m [0b01000111, 0b00000101] = .ok (.prn 5, []) ∧
  decode m [0b00000001] = .ok (.hlt, []) ∧
  decode m [0b10100010, 0b00000100, 0b00000110] = .ok (.mul 4 6, []) ∧
  decode m [0b10100000, 0b00000111, 0b00000000] = .ok (.add 7 0, []) ∧
  decode m [0b10100111, 0b00000001, 0b00000010] = .ok (.cmp 1 2, []) ∧
  decode m [0b01000101, 0b00000111] = .ok (.push 7, []) ∧
  decode m [0b01000110, 0b00000001] = .ok (.pop 1, []) ∧
  decode m [0b01010000, 0b00000010] = .ok (.call 2, []) ∧
  decode m [0b00010001] = .ok (.ret, []) ∧
  decode m [0b01010100, 0b00000011] = .ok (.jmp 3, []) ∧
  decode m [0b01010101, 0b00001001] = .ok (.jeq 9, []) ∧
  decode m [0b01010110, 0b10000000] = .ok (.jne 128, [])

/-- The length of an instruction is told by its first byte alone: 1 + bits 7:6, which are 0, 1 or 2 for a known opcode, so an
instruction has 1 to 3 bytes (R74). -/
def Obligations.FirstByteTellsTheLength : Prop :=
  ∀ (c : LegalConfig) (ir : Byte) (bytes : List Byte) (i : Instr) (rest : List Byte),
    decode c.val.opcodes (ir :: bytes) = .ok (i, rest) →
      aaField ir ≤ 2 ∧ aaField ir ≤ bytes.length ∧ rest = bytes.drop (aaField ir) ∧
        (encode c.val.opcodes i).length = 1 + aaField ir

/-- The maps accepted as configuration are exactly those of R79: bits 7:6 of each byte are the operand count of R71, bit 4 is 1
exactly for CALL, RET, JMP, JEQ and JNE, and the thirteen bytes are distinct; any other map is refused. -/
def Obligations.AcceptedMapsAreThoseOfTheRule : Prop :=
  ∀ c : Config,
    ((∃ l, acceptConfig c = some l ∧ l.val = c) ↔
      (∀ op : Opcode,
        aaField (c.opcodes.byte op) =
          (match op with
            | .hlt | .ret => 0
            | .prn | .push | .pop | .call | .jmp | .jeq | .jne => 1
            | .ldi | .mul | .add | .cmp => 2) ∧
        (cField (c.opcodes.byte op) = true ↔ op = .call ∨ op = .ret ∨ op = .jmp ∨ op = .jeq ∨ op = .jne)) ∧
      (∀ op op' : Opcode, c.opcodes.byte op = c.opcodes.byte op' → op = op')) ∧
    (acceptConfig c = none ↔ ¬ ∃ l, acceptConfig c = some l ∧ l.val = c)

/-- A byte that is none of the thirteen values of OPCODE_MAP decodes to nothing, whatever follows it, and no other first byte is
called unknown; a byte with AA = 3 is always unknown; under the default map 243 bytes are (30_encoding.md R75, R80; the default
map is D1's, notes/assumptions/1.md). -/
def Obligations.UnknownBytesAreExactlyThoseOutsideTheMap : Prop :=
  (∀ (m : OpcodeMap) (ir : Byte) (bytes : List Byte),
    decode m (ir :: bytes) = .error (.unknownOpcode ir) ↔ ∀ op : Opcode, m.byte op ≠ ir) ∧
  (∀ (c : LegalConfig) (ir : Byte) (bytes : List Byte),
    aaField ir = 3 → decode c.val.opcodes (ir :: bytes) = .error (.unknownOpcode ir)) ∧
  ((List.range 256).filter fun n => (opcodeOf? defaultConfig.val.opcodes (BitVec.ofNat 8 n)).isNone).length = 243

/-! ### State -/

/-- No register is hardwired: each of R0 to R7 holds whatever was last written to it, and a write to one changes no other
(R20). -/
def Obligations.EveryRegisterHoldsTheLastWrite : Prop :=
  ∀ (s : State) (i j : RegIx) (v : Byte), (s.setReg i v).reg j = if j = i then v else s.reg j

/-- SP and register 7 are the same 8 bits: an instruction that names register 7 reads or writes SP, and SP is 0xF4 after
reset (R21). -/
def Obligations.StackPointerIsRegisterSeven : Prop :=
  (∀ s : State, s.sp = s.reg 7) ∧
  (∀ (s : State) (v : Byte), (s.setReg 7 v).sp = v) ∧
  (∀ (s : State) (v : Byte), ∃ t, exec (.ldi (regByte 7) v) s = .next t ∧ t.sp = v) ∧
  (∀ s : State, ∃ t, exec (.prn (regByte 7)) s = .next t ∧ t.out = s.out ++ [s.sp]) ∧
  State.reset.sp = 0xF4

/-- Reset, accepted in every status, sets every piece of state: every memory cell 0, R0 to R6 0, R7 = 0xF4, pc 0, FL 0, Idle, the
fault record 0, no output (70_reset_and_hazards.md R240, R241, 10_state.md R38; the last two values are the spec's decision
D22, notes/assumptions/18.md). -/
def Obligations.ResetSetsEveryPieceOfState : Prop :=
  ∀ s : State, ∃ t, hostOp .reset s = (.done, t) ∧ t = State.reset ∧
    (∀ addr, Memory.read t.mem addr = 0) ∧ (∀ i : RegIx, i ≠ 7 → t.reg i = 0) ∧ t.reg 7 = 0xF4 ∧ t.pc = 0 ∧ t.fl = 0 ∧
    t.status = .idle ∧ t.fault = ⟨.none, .none, 0, 0⟩ ∧ t.out = []

/-! ### Memory -/

/-- After any sequence of writes to the reset memory, a read gives the most recent write to its address, or 0 if there was none
(20_memory.md R57, R54). -/
def Obligations.ReadGivesTheMostRecentWrite : Prop :=
  ∀ (writes : List (Nat × Byte)) (addr : Nat),
    Memory.read (writes.foldl (fun m w => Memory.write m w.1 w.2) State.reset.mem) addr =
      match writes.reverse.find? (fun w => w.1 == addr) with
      | some w => w.2
      | none   => 0

/-- Memories in canonical form that read the same at every address are equal data, and every memory in canonical form reads 0
outside the 256 addresses (10_state.md R33, 20_memory.md R50; the canonical form is the model's, notes/assumptions/16.md). -/
def Obligations.CanonicalMemoriesThatReadAlikeAreEqual : Prop :=
  (∀ m m' : Memory, Memory.wf m = true → Memory.wf m' = true →
    (∀ addr, Memory.read m addr = Memory.read m' addr) → m = m') ∧
  (∀ (m : Memory) (addr : Nat), Memory.wf m = true → 256 ≤ addr → Memory.read m addr = 0)

/-! ### The arithmetic -/

/-- The ALU's three operations, on unsigned bytes: the sum and the product modulo 256, and a comparison that sets exactly one of
E, G, L, by the order of the operands as integers. What ADD and MUL discard is recorded nowhere: of the whole state only the
first register and pc change (R141). -/
def Obligations.AluResultsAreExactModulo256 : Prop :=
  (∀ x y : Byte,
    (aluAdd x y).toNat = (x.toNat + y.toNat) % 256 ∧
    (aluMul x y).toNat = (x.toNat * y.toNat) % 256 ∧
    (flagE (compareFlags x y) = decide (x.toNat = y.toNat)) ∧
    (flagG (compareFlags x y) = decide (x.toNat > y.toNat)) ∧
    (flagL (compareFlags x y) = decide (x.toNat < y.toNat))) ∧
  (∀ (s : State) (i j : RegIx),
    (∃ t, exec (.add (regByte i) (regByte j)) s = .next t ∧ t.reg i = aluAdd (s.reg i) (s.reg j) ∧
      sameRegsBut [i] s t ∧ t = { s with regs := t.regs, pc := t.pc }) ∧
    (∃ t, exec (.mul (regByte i) (regByte j)) s = .next t ∧ t.reg i = aluMul (s.reg i) (s.reg j) ∧
      sameRegsBut [i] s t ∧ t = { s with regs := t.regs, pc := t.pc }))

/-! ### What each instruction does, and what it leaves -/

/-- LDI completes on every register, every immediate and every state: the register holds the immediate whatever it held before,
pc advances by 3, and nothing else changes (41_load_print_halt.md, LDI). -/
def Obligations.LdiWritesTheImmediate : Prop :=
  ∀ (s : State) (i : RegIx) (v : Byte), ∃ t, exec (.ldi (regByte i) v) s = .next t ∧
    t.reg i = v ∧ t.pc = s.pc + 3 ∧
    sameRegsBut [i] s t ∧ sameMemoryBut [] s t ∧ t.fl = s.fl ∧ t.out = s.out ∧ sameStatus s t

/-- PRN completes on every register and every state: the output stream gains the register's byte at its end, pc advances by 2, and
nothing else changes (41_load_print_halt.md, PRN). -/
def Obligations.PrnEmitsTheRegister : Prop :=
  ∀ (s : State) (i : RegIx), ∃ t, exec (.prn (regByte i)) s = .next t ∧
    t.out = s.out ++ [s.reg i] ∧ t.pc = s.pc + 2 ∧
    sameRegsBut [] s t ∧ sameMemoryBut [] s t ∧ t.fl = s.fl ∧ sameStatus s t

/-- HLT completes in every state: status becomes Halted, pc advances by 1, and nothing else changes
(41_load_print_halt.md, HLT). -/
def Obligations.HltHaltsOnePastItself : Prop :=
  ∀ s : State, ∃ t, exec .hlt s = .next t ∧
    t.status = .halted ∧ t.pc = s.pc + 1 ∧
    sameRegsBut [] s t ∧ sameMemoryBut [] s t ∧ t.fl = s.fl ∧ t.out = s.out ∧ t.fault = s.fault

/-- MUL completes on every pair of registers, the same one twice included: the first holds the product modulo 256, pc advances by
3, and nothing else changes, FL included (42_alu.md, MUL). -/
def Obligations.MulWritesTheProductModulo256 : Prop :=
  ∀ (s : State) (i j : RegIx), ∃ t, exec (.mul (regByte i) (regByte j)) s = .next t ∧
    (t.reg i).toNat = ((s.reg i).toNat * (s.reg j).toNat) % 256 ∧ t.pc = s.pc + 3 ∧
    sameRegsBut [i] s t ∧ sameMemoryBut [] s t ∧ t.fl = s.fl ∧ t.out = s.out ∧ sameStatus s t

/-- ADD completes on every pair of registers, R7 and the same one twice included: the first holds the sum modulo 256, with no
range check on SP, pc advances by 3, and nothing else changes, FL included (42_alu.md, ADD). -/
def Obligations.AddWritesTheSumModulo256 : Prop :=
  ∀ (s : State) (i j : RegIx), ∃ t, exec (.add (regByte i) (regByte j)) s = .next t ∧
    (t.reg i).toNat = ((s.reg i).toNat + (s.reg j).toNat) % 256 ∧ t.pc = s.pc + 3 ∧
    sameRegsBut [i] s t ∧ sameMemoryBut [] s t ∧ t.fl = s.fl ∧ t.out = s.out ∧ sameStatus s t

/-- CMP completes on every pair of registers: all of FL becomes 0x01 (equal), 0x02 (greater) or 0x04 (less), comparing as
unsigned integers, pc advances by 3, and nothing else changes (42_alu.md, CMP). The bit places are the spec's decision D8, from
general knowledge (notes/assumptions/6.md). -/
def Obligations.CmpSetsOneFlag : Prop :=
  ∀ (s : State) (i j : RegIx), ∃ t, exec (.cmp (regByte i) (regByte j)) s = .next t ∧
    ((s.reg i).toNat = (s.reg j).toNat → t.fl = 0x01) ∧
    ((s.reg i).toNat > (s.reg j).toNat → t.fl = 0x02) ∧
    ((s.reg i).toNat < (s.reg j).toNat → t.fl = 0x04) ∧ t.pc = s.pc + 3 ∧
    sameRegsBut [] s t ∧ sameMemoryBut [] s t ∧ t.out = s.out ∧ sameStatus s t

/-- PUSH completes on every register when SP is not 0: SP is decremented, the byte at the new SP is the register's (for R7 the
decremented SP), pc advances by 2, and nothing else changes: every register but SP, every other byte of memory (43_stack.md,
PUSH). The reading of PUSH R7 is the spec's decision D9 (notes/assumptions/7.md). -/
def Obligations.PushStoresBelowTheStackPointer : Prop :=
  ∀ (s : State) (i : RegIx), s.sp ≠ 0 → ∃ t, exec (.push (regByte i)) s = .next t ∧
    t.sp = s.sp - 1 ∧ Memory.read t.mem (s.sp - 1).toNat = (if i = 7 then s.sp - 1 else s.reg i) ∧ t.pc = s.pc + 2 ∧
    sameRegsBut [7] s t ∧ sameMemoryBut [(s.sp - 1).toNat] s t ∧ t.fl = s.fl ∧ t.out = s.out ∧ sameStatus s t

/-- POP completes on every register when the SP to be incremented is not 255: the register holds the byte at SP, SP is
incremented (for R7 SP is the popped byte + 1), pc advances by 2, and nothing else changes; the popped byte stays in memory
(43_stack.md, POP). The reading of POP R7 is the spec's decision D9 (notes/assumptions/7.md). -/
def Obligations.PopLoadsFromTheStackPointer : Prop :=
  ∀ (s : State) (i : RegIx), (if i = 7 then Memory.read s.mem s.sp.toNat else s.sp) ≠ 255 →
    ∃ t, exec (.pop (regByte i)) s = .next t ∧
      (i ≠ 7 → t.reg i = Memory.read s.mem s.sp.toNat ∧ t.sp = s.sp + 1) ∧
      (i = 7 → t.sp = Memory.read s.mem s.sp.toNat + 1) ∧ t.pc = s.pc + 2 ∧
      sameRegsBut [i, 7] s t ∧ sameMemoryBut [] s t ∧ t.fl = s.fl ∧ t.out = s.out ∧ sameStatus s t

/-- CALL completes on every register when SP is not 0 and pc + 2 fits a byte: SP is decremented, the byte at the new SP is the
return address pc + 2, pc is the register's value (for R7 the decremented SP), and nothing else changes (44_control.md, CALL).
The reading of CALL R7 is the spec's decision D9 (notes/assumptions/7.md), the condition on pc its decision D5
(notes/assumptions/9.md). -/
def Obligations.CallPushesTheReturnAddress : Prop :=
  ∀ (s : State) (i : RegIx), s.sp ≠ 0 → s.pc.toNat + 2 ≤ 255 → ∃ t, exec (.call (regByte i)) s = .next t ∧
    t.sp = s.sp - 1 ∧ (Memory.read t.mem (s.sp - 1).toNat).toNat = s.pc.toNat + 2 ∧
    t.pc.toNat = (if i = 7 then s.sp - 1 else s.reg i).toNat ∧
    sameRegsBut [7] s t ∧ sameMemoryBut [(s.sp - 1).toNat] s t ∧ t.fl = s.fl ∧ t.out = s.out ∧ sameStatus s t

/-- RET completes when SP is not 255: pc is the byte at SP, SP is incremented, and nothing else changes (44_control.md, RET). -/
def Obligations.RetPopsTheReturnAddress : Prop :=
  ∀ s : State, s.sp ≠ 255 → ∃ t, exec .ret s = .next t ∧
    t.pc.toNat = (Memory.read s.mem s.sp.toNat).toNat ∧ t.sp = s.sp + 1 ∧
    sameRegsBut [7] s t ∧ sameMemoryBut [] s t ∧ t.fl = s.fl ∧ t.out = s.out ∧ sameStatus s t

/-- JMP completes on every register and every state: pc is the register's value, and nothing else changes (44_control.md,
JMP). -/
def Obligations.JmpGoesToTheRegister : Prop :=
  ∀ (s : State) (i : RegIx), ∃ t, exec (.jmp (regByte i)) s = .next t ∧
    t.pc.toNat = (s.reg i).toNat ∧
    sameRegsBut [] s t ∧ sameMemoryBut [] s t ∧ t.fl = s.fl ∧ t.out = s.out ∧ sameStatus s t

/-- JEQ completes: with E set on every register, to the register's value; with E clear on every operand byte, a byte above 7
included, to pc + 2, the register not accessed. Nothing else changes (44_control.md, JEQ). That a jump not taken does not check
its operand is the spec's decision D16 (notes/assumptions/8.md). -/
def Obligations.JeqJumpsWhenEqualIsSet : Prop :=
  (∀ (s : State) (i : RegIx), flagE s.fl = true → ∃ t, exec (.jeq (regByte i)) s = .next t ∧
    t.pc.toNat = (s.reg i).toNat ∧
    sameRegsBut [] s t ∧ sameMemoryBut [] s t ∧ t.fl = s.fl ∧ t.out = s.out ∧ sameStatus s t) ∧
  (∀ (s : State) (a : Byte), flagE s.fl = false → ∃ t, exec (.jeq a) s = .next t ∧
    t.pc = s.pc + 2 ∧
    sameRegsBut [] s t ∧ sameMemoryBut [] s t ∧ t.fl = s.fl ∧ t.out = s.out ∧ sameStatus s t)

/-- JNE completes: with E clear on every register, to the register's value; with E set on every operand byte, a byte above 7
included, to pc + 2, the register not accessed. Nothing else changes (44_control.md, JNE). That a jump not taken does not check
its operand is the spec's decision D16 (notes/assumptions/8.md). -/
def Obligations.JneJumpsWhenEqualIsClear : Prop :=
  (∀ (s : State) (i : RegIx), flagE s.fl = false → ∃ t, exec (.jne (regByte i)) s = .next t ∧
    t.pc.toNat = (s.reg i).toNat ∧
    sameRegsBut [] s t ∧ sameMemoryBut [] s t ∧ t.fl = s.fl ∧ t.out = s.out ∧ sameStatus s t) ∧
  (∀ (s : State) (a : Byte), flagE s.fl = true → ∃ t, exec (.jne a) s = .next t ∧
    t.pc = s.pc + 2 ∧
    sameRegsBut [] s t ∧ sameMemoryBut [] s t ∧ t.fl = s.fl ∧ t.out = s.out ∧ sameStatus s t)

/-! ### Faults -/

/-- A register operand above 7 that the instruction accesses is OutOfRange with the index: read by PRN, MUL, ADD, CMP, PUSH, CALL,
JMP, by JEQ when E is set and by JNE when E is clear, and as their second operand by MUL, ADD and CMP, the first being checked
first; written by LDI and POP. It is reported before any fault of the stack or the return address (60_exceptions.md, the rows
register index of the cause table and the priority list). The names of the record are the spec's decision D18, the priority its
decision D7 (notes/assumptions/11.md). -/
def Obligations.RegisterIndexAboveSevenFaults : Prop :=
  ∀ (s : State) (a b : Byte),
    (8 ≤ a.toNat →
      (∀ i ∈ [Instr.prn a, .mul a b, .add a b, .cmp a b, .push a, .call a, .jmp a],
        FaultsWith s (exec i s) .outOfRange .registerRead a.toNat) ∧
      (∀ i ∈ [Instr.ldi a b, .pop a], FaultsWith s (exec i s) .outOfRange .registerWrite a.toNat) ∧
      (flagE s.fl = true → FaultsWith s (exec (.jeq a) s) .outOfRange .registerRead a.toNat) ∧
      (flagE s.fl = false → FaultsWith s (exec (.jne a) s) .outOfRange .registerRead a.toNat)) ∧
    (a.toNat < 8 → 8 ≤ b.toNat →
      ∀ i ∈ [Instr.mul a b, .add a b, .cmp a b], FaultsWith s (exec i s) .outOfRange .registerRead b.toNat)

/-- An adjustment of SP that would leave [0, 255] faults in the instruction that makes it, with the value attempted: PUSH and CALL
with SP = 0, RET with SP = 255, POP when the SP it would increment is 255 (43_stack.md, the stack-pointer adjustment check, PUSH
and POP). The check is the spec's decision D4 (notes/assumptions/9.md). That POP R7 increments the popped byte is its decision D9
(notes/assumptions/7.md, 43_stack.md, POP). That CALL at 254 with SP = 0 reports the stack and not the return address is its
decision D7 (notes/assumptions/11.md). -/
def Obligations.StackAdjustmentOutOfRangeFaults : Prop :=
  ∀ (s : State) (i : RegIx),
    (s.sp = 0 → FaultsWith s (exec (.push (regByte i)) s) .outOfRange .stackAdjust (-1) ∧
      FaultsWith s (exec (.call (regByte i)) s) .outOfRange .stackAdjust (-1)) ∧
    (s.sp = 255 → FaultsWith s (exec .ret s) .outOfRange .stackAdjust 256) ∧
    ((if i = 7 then Memory.read s.mem s.sp.toNat else s.sp) = 255 →
      FaultsWith s (exec (.pop (regByte i)) s) .outOfRange .stackAdjust 256)

/-- A CALL whose return address pc + 2 exceeds 255, on a valid register and with SP not 0, is OutOfRange(return-address, pc + 2)
(44_control.md, CALL). The check is the spec's decision D5 (notes/assumptions/9.md). -/
def Obligations.ReturnAddressAbove255Faults : Prop :=
  ∀ (s : State) (i : RegIx), s.sp ≠ 0 → 255 < s.pc.toNat + 2 →
    FaultsWith s (exec (.call (regByte i)) s) .outOfRange .returnAddress (s.pc.toNat + 2 : Nat)

/-- An opcode fetch from a pc above 255 is OutOfRange(fetch-opcode, pc), whatever memory holds (40_cycle.md, fetch). That pc can
exceed 255 is the spec's decision D3 (notes/assumptions/10.md). -/
def Obligations.OpcodeFetchAbove255Faults : Prop :=
  ∀ (c : LegalConfig) (s : State), s.status = .running → 255 < s.pc.toNat →
    FaultsWith s (stepWith c s) .outOfRange .fetchOpcode s.pc.toNat

/-- A known opcode with operand count n has its n operand bytes fetched, a from pc + 1 and then b from pc + 2, and the instruction
runs with them; an operand address above 255 is OutOfRange(fetch-operand, address), a's checked before b's; no byte beyond the
instruction is fetched (R105). -/
def Obligations.KnownOpcodeFetchesItsOperands : Prop :=
  ∀ (c : LegalConfig) (s : State) (op : Opcode), s.status = .running → s.pc.toNat ≤ 255 →
    Memory.read s.mem s.pc.toNat = c.val.opcodes.byte op →
    match op.form with
    | .f0 i => op.operandCount = 0 ∧ stepWith c s = exec i s
    | .f1 mk => op.operandCount = 1 ∧
      (s.pc.toNat + 1 ≤ 255 → stepWith c s = exec (mk (Memory.read s.mem (s.pc.toNat + 1))) s) ∧
      (255 < s.pc.toNat + 1 → FaultsWith s (stepWith c s) .outOfRange .fetchOperand (s.pc.toNat + 1 : Nat))
    | .f2 mk => op.operandCount = 2 ∧
      (s.pc.toNat + 2 ≤ 255 → stepWith c s =
        exec (mk (Memory.read s.mem (s.pc.toNat + 1)) (Memory.read s.mem (s.pc.toNat + 2))) s) ∧
      (255 < s.pc.toNat + 1 → FaultsWith s (stepWith c s) .outOfRange .fetchOperand (s.pc.toNat + 1 : Nat)) ∧
      (s.pc.toNat + 1 ≤ 255 → 255 < s.pc.toNat + 2 →
        FaultsWith s (stepWith c s) .outOfRange .fetchOperand (s.pc.toNat + 2 : Nat))

/-- Under policy fault an unknown byte at pc is UnsupportedOperation(decode, the byte), whatever the bytes after it are, those
above 255 included (40_cycle.md, unknown opcode under fault; the policy is the spec's decision D2, notes/assumptions/2.md). -/
def Obligations.UnknownOpcodeFaultsUnderPolicyFault : Prop :=
  ∀ (c : LegalConfig) (s : State), c.val.policy = .fault → s.status = .running → s.pc.toNat ≤ 255 →
    (∀ op : Opcode, c.val.opcodes.byte op ≠ Memory.read s.mem s.pc.toNat) →
    FaultsWith s (stepWith c s) .unsupportedOperation .decode (Memory.read s.mem s.pc.toNat).toNat

/-- Under policy skip an unknown byte at pc does nothing but the PC advance of its own bits: pc + 1 + bits 7:6 when bit 4 is
clear, pc itself when bit 4 is set. Nothing is fetched after it and no other piece of state changes (40_cycle.md, unknown opcode
under skip; the policy is the spec's decision D2, notes/assumptions/2.md). -/
def Obligations.UnknownOpcodeIsSkippedUnderPolicySkip : Prop :=
  ∀ (c : LegalConfig) (s : State), c.val.policy = .skip → s.status = .running → s.pc.toNat ≤ 255 →
    (∀ op : Opcode, c.val.opcodes.byte op ≠ Memory.read s.mem s.pc.toNat) →
    ∃ t, stepWith c s = .next t ∧ t = { s with pc := t.pc } ∧
      (cField (Memory.read s.mem s.pc.toNat) = false →
        t.pc.toNat = s.pc.toNat + 1 + aaField (Memory.read s.mem s.pc.toNat)) ∧
      (cField (Memory.read s.mem s.pc.toNat) = true → t.pc = s.pc)

/-- Under policy skip an unknown byte with bit 4 set hangs the engine: after any number of steps the state is the same and still
Running, so the run never ends and is never final (40_cycle.md, unknown opcode under skip, a consequence the spec derives). -/
def Obligations.SkippedPcSettingByteHangs : Prop :=
  ∀ (c : LegalConfig) (s : State), c.val.policy = .skip → s.status = .running → s.pc.toNat ≤ 255 →
    (∀ op : Opcode, c.val.opcodes.byte op ≠ Memory.read s.mem s.pc.toNat) →
    cField (Memory.read s.mem s.pc.toNat) = true →
    (∀ k, runWith c k s = .next s) ∧ RunsForever c s ∧ ¬ ∃ t, RunHaltsIn c s t

/-- Faults are precise: a step that ends in Faulted leaves every register, all of memory, FL, the output stream and pc as they
were, and its record names pc as the faulting instruction's; there is no vector (60_exceptions.md, precise faults and fault
entry). This is the spec's decision D6, and the spec asks that no claim about a program rest on it (notes/assumptions/5.md). -/
def Obligations.FaultsCommitNothing : Prop :=
  ∀ (c : LegalConfig) (s t : State), stepWith c s = .next t → t.status = .faulted →
    sameRegsBut [] s t ∧ sameMemoryBut [] s t ∧ t.fl = s.fl ∧ t.out = s.out ∧ t.pc = s.pc ∧ t.fault.pc = s.pc ∧
    ((t.fault.op = .decode ∧ t.fault.kind = .unsupportedOperation) ∨
      (t.fault.op ≠ .none ∧ t.fault.op ≠ .decode ∧ t.fault.kind = .outOfRange))

/-- While Running the engine always has a step. It faults exactly when one of the causes of the tables of 60_exceptions.md
applies, and the record then is that of the first cause in the order fetch-opcode, decode, fetch-operand a then b, register
index a then b, stack-adjust, return-address; when none applies the step completes (60_exceptions.md, cause tables and priority;
70_reset_and_hazards.md, progress). `firstFault` is read off those tables, not off the instructions' meanings. The order is the
spec's decision D7 (notes/assumptions/11.md). That the SP which POP R7 increments is the popped byte is its decision D9
(notes/assumptions/7.md, 43_stack.md, POP). The causes rest on its decisions D3, D4, D5 and D16 (notes/assumptions/10.md, 9.md,
8.md). -/
def Obligations.StepReportsTheFirstFaultOrCompletes : Prop :=
  ∀ (c : LegalConfig) (s : State), s.status = .running →
    match firstFault c s with
    | some (op, value) => FaultsWith s (stepWith c s) op.kind op value
    | none => ∃ t, stepWith c s = .next t ∧ t.status ≠ .faulted

/-! ### The cycle -/

/-- The engine has a step only while status is Running: in Idle, Halted and Faulted the step stops under the name notRunning, so a
faulted or halted core takes no step (40_cycle.md, the step; the form of the stop is the model's choice,
notes/assumptions/3.md). -/
def Obligations.NoStepUnlessRunning : Prop :=
  ∀ (c : LegalConfig) (s : State), s.status ≠ .running → stepWith c s = .fault (.notRunning s.status)

/-- When the bytes at pc decode to an instruction, the step is exactly that instruction's effect: the cycle adds nothing around it
(the instruction moves pc itself). The fixed name `step` is the step under the default configuration
(40_cycle.md, the step). -/
def Obligations.StepRunsTheDecodedInstruction : Prop :=
  (∀ (c : LegalConfig) (s : State) (i : Instr) (rest : List Byte), s.status = .running →
    decode c.val.opcodes (bytesFromPc s) = .ok (i, rest) → stepWith c s = exec i s) ∧
  (∀ s : State, step s = stepWith defaultConfig s)

/-- After a step that does not fault on a byte whose bit 4 is clear, pc has advanced by 1 + the operand count in bits 7:6: by 1
for HLT, so that HLT at address h leaves h + 1, by 2 for PRN, PUSH and POP, by 3 for LDI, MUL, ADD and CMP. It is not reduced
modulo 256, so it may be 256 or more, and the next fetch then faults (40_cycle.md, default PC advance). The spec derives the
clause on HLT itself, and the width of pc that lets it pass 255 is its decision D3 (notes/assumptions/10.md). -/
def Obligations.DefaultPcAdvance : Prop :=
  ∀ (c : LegalConfig) (s t : State), stepWith c s = .next t → t.status ≠ .faulted →
    cField (Memory.read s.mem s.pc.toNat) = false →
    t.pc.toNat = s.pc.toNat + (1 + aaField (Memory.read s.mem s.pc.toNat)) ∧
    (∀ op : Opcode, Memory.read s.mem s.pc.toNat = c.val.opcodes.byte op →
      (op = .hlt → t.pc.toNat = s.pc.toNat + 1) ∧
      (op = .prn ∨ op = .push ∨ op = .pop → t.pc.toNat = s.pc.toNat + 2) ∧
      (op = .ldi ∨ op = .mul ∨ op = .add ∨ op = .cmp → t.pc.toNat = s.pc.toNat + 3)) ∧
    (255 < t.pc.toNat → t.status = .running → FaultsWith t (stepWith c t) .outOfRange .fetchOpcode t.pc.toNat)

/-- pc after every instruction that completes, PC-setting or not (40_cycle.md, next-pc summary, which the spec derives). For
CALL R7 the summary's x[a] is the SP already decremented, which the summary does not say: it is 44_control.md, CALL, by the spec's
decision D9 (notes/assumptions/7.md). -/
def Obligations.NextPcIsThatOfTheSummary : Prop :=
  ∀ (i : Instr) (s t : State), exec i s = .next t → t.status ≠ .faulted → t.pc = nextPc i s

/-- The only way a step leaves Running is HLT, which goes to Halted one past its byte with the fault record unchanged, or a fault,
which goes to Faulted; every other step stays Running with the fault record unchanged (10_state.md, execution status, which is
the spec's decision D11; notes/assumptions/18.md). -/
def Obligations.RunningIsLeftByHltOrFaultOnly : Prop :=
  ∀ (c : LegalConfig) (s t : State), stepWith c s = .next t →
    (t.status = .running ∧ t.fault = s.fault) ∨
    (t.status = .halted ∧ t.fault = s.fault ∧ s.pc.toNat ≤ 255 ∧
      Memory.read s.mem s.pc.toNat = c.val.opcodes.byte .hlt ∧ t.pc = s.pc + 1) ∨
    (t.status = .faulted ∧ t.fault.kind ≠ .none)

/-! ### Who reads and writes what -/

/-- FL is changed by CMP alone, and by no fault; CMP sets it without reading it; JEQ and JNE read its E bit and nothing else of
it; no other instruction reads it; it is 0 after reset (R28). -/
def Obligations.FlagsAreWrittenByCmpAndReadByJumpsOnly : Prop :=
  (∀ (i : Instr) (s t : State), exec i s = .next t → t.fl ≠ s.fl → i.opcode = .cmp) ∧
  (∀ (c : LegalConfig) (s t : State), stepWith c s = .next t → t.status = .faulted → t.fl = s.fl) ∧
  (∀ (i : Instr) (s : State) (f : Byte), i.opcode ≠ .cmp →
    ((i.opcode = .jeq ∨ i.opcode = .jne) → flagE f = flagE s.fl) →
    exec i (s.setFl f) = mapNext (fun t => t.setFl f) (exec i s)) ∧
  (∀ (a b f : Byte) (s t : State), exec (.cmp a b) s = .next t → t.status ≠ .faulted →
    exec (.cmp a b) (s.setFl f) = .next t) ∧
  State.reset.fl = 0

/-- Each PRN that completes appends its register's byte at the end of the output stream; no other step changes the stream, and a
step that faults does not (R124, output stream; R32; the decimal formatting is the host's). -/
def Obligations.OutputGrowsByPrnOnly : Prop :=
  ∀ (c : LegalConfig) (s t : State), stepWith c s = .next t →
    (t.status ≠ .faulted → Memory.read s.mem s.pc.toNat = c.val.opcodes.byte .prn →
      ∃ i : RegIx, Memory.read s.mem (s.pc.toNat + 1) = regByte i ∧ t.out = s.out ++ [s.reg i]) ∧
    (t.status = .faulted ∨ Memory.read s.mem s.pc.toNat ≠ c.val.opcodes.byte .prn → t.out = s.out)

/-- A byte of memory is changed by PUSH and CALL alone, and only at SP after the decrement: no other instruction stores
(20_memory.md, which accesses reach memory). -/
def Obligations.MemoryIsWrittenByPushAndCallOnly : Prop :=
  ∀ (i : Instr) (s t : State) (addr : Nat), exec i s = .next t → Memory.read t.mem addr ≠ Memory.read s.mem addr →
    (i.opcode = .push ∨ i.opcode = .call) ∧ s.sp ≠ 0 ∧ addr = (s.sp - 1).toNat

/-- A register is changed only by an instruction that the access table lists as writing it (10_state.md, register access by
instruction). -/
def Obligations.RegistersAreWrittenAsTabled : Prop :=
  ∀ (i : Instr) (s t : State) (r : RegIx), exec i s = .next t → t.reg r ≠ s.reg r → mayWrite i r

/-- Only CALL reads pc into anything but pc: with another pc, every other instruction gives the same registers, memory, FL, output
and status (10_state.md, program counter). -/
def Obligations.ProgramCounterIsReadByCallOnly : Prop :=
  ∀ (i : Instr) (s t : State) (p : Pc), i.opcode ≠ .call → exec i s = .next t →
    ∃ u, exec i { s with pc := p } = .next u ∧
      u.regs = t.regs ∧ u.mem = t.mem ∧ u.fl = t.fl ∧ u.out = t.out ∧ u.status = t.status

/-! ### Sequences -/

/-- PUSH then POP of the same register, R7 included, restores every register and SP, from every SP but 0; the byte at the old
SP - 1 keeps the pushed value (43_stack.md, PUSH then POP restores, which the spec derives for every register and SP). -/
def Obligations.PushThenPopRestores : Prop :=
  ∀ (s : State) (i : RegIx), s.sp ≠ 0 → ∃ t u,
    exec (.push (regByte i)) s = .next t ∧ exec (.pop (regByte i)) t = .next u ∧
    u.regs = s.regs ∧ u.sp = s.sp ∧ u.status = s.status ∧
    Memory.read u.mem (s.sp.toNat - 1) = (if i = 7 then s.sp - 1 else s.reg i)

/-- CALL and then, from any state that has SP and the byte at SP as CALL left them, RET: pc is the instruction after the CALL and
its operand, and SP is as before the CALL, for any CALL at 0 to 253 with SP not 0 (44_control.md, CALL then RET restores, whose
range the spec derives). -/
def Obligations.CallThenRetRestores : Prop :=
  ∀ (s : State) (i : RegIx), s.sp ≠ 0 → s.pc.toNat ≤ 253 → ∃ t, exec (.call (regByte i)) s = .next t ∧
    ∀ w : State, w.sp = t.sp → Memory.read w.mem w.sp.toNat = Memory.read t.mem t.sp.toNat →
      ∃ u, exec .ret w = .next u ∧ u.pc.toNat = s.pc.toNat + 2 ∧ u.sp = s.sp

/-- A PUSH that overwrites its own operand byte completes with the operand it fetched, and the new byte is what the address holds
afterwards (70_reset_and_hazards.md, operand capture, the spec's decision D10, notes/assumptions/19.md; 43_stack.md, PUSH, for
the byte stored). That PUSH R7 stores the SP already decremented is its decision D9 (notes/assumptions/7.md). -/
def Obligations.PushOverItsOwnOperandUsesTheFetchedOperand : Prop :=
  ∀ (c : LegalConfig) (s : State) (i : RegIx), s.status = .running →
    Memory.read s.mem s.pc.toNat = c.val.opcodes.byte .push → Memory.read s.mem (s.pc.toNat + 1) = regByte i →
    s.sp.toNat = s.pc.toNat + 2 →
    ∃ t, stepWith c s = .next t ∧ t.pc = s.pc + 2 ∧ t.sp.toNat = s.pc.toNat + 1 ∧
      Memory.read t.mem (s.pc.toNat + 1) = (if i = 7 then s.sp - 1 else s.reg i)

/-! ### Invariants -/

/-- The state after reset is legal. -/
def Obligations.ResetIsLegal : Prop := State.reset.Inv

/-- Every step from a legal state, reached by a run or not, ends in a legal state, under every legal configuration: each legal
map, and each policy for unknown bytes. Legal is: memory in canonical form, FL one of its four legal values, pc at most 259 (which
policy skip alone reaches, from an unknown byte at 255), and a fault record that is zero unless Faulted and else a row of the fault table
(10_state.md R26, R27, R31, R33, 60_exceptions.md R211; what is legal rests on the spec's decisions D3, D8, D18). -/
def Obligations.StepKeepsStatesLegal : Prop :=
  ∀ (c : LegalConfig) (s t : State), s.Inv → stepWith c s = .next t → t.Inv

/-- Every operation of the host, whatever its address, index and byte, and in every status, leaves a legal state legal
(10_state.md, host access port). -/
def Obligations.HostOperationsKeepStatesLegal : Prop :=
  ∀ (op : HostOp) (s : State), s.Inv → (hostOp op s).2.Inv

/-- Every state reached from reset by steps of the engine and operations of the host in any order is legal, under every legal
configuration; in particular FL is one of four values and pc never exceeds 259 (10_state.md, which derives both). -/
def Obligations.ReachableStatesAreLegal : Prop :=
  ∀ (c : LegalConfig) (s : State), Reachable c s → s.Inv

/-! ### The host -/

/-- While the engine is not Running, HostRead and HostGetReg answer the byte, HostWrite and HostSetReg set it, and an address above
255 or an index above 7 is the answer OutOfRange with that number, which changes nothing: not status, not the fault record, not
memory, not a register (10_state.md, host access port; the ports are the spec's decision D12, notes/assumptions/12.md). -/
def Obligations.HostPortReadsAndWritesInRange : Prop :=
  ∀ (s : State) (n : Nat) (v : Byte), s.status ≠ .running →
    (n ≤ 255 → hostOp (.read n) s = (.byte (Memory.read s.mem n), s) ∧
      ∃ t, hostOp (.write n v) s = (.done, t) ∧ Memory.read t.mem n = v ∧ sameMemoryBut [n] s t ∧
        t = { s with mem := t.mem }) ∧
    (255 < n → hostOp (.read n) s = (.outOfRange n, s) ∧ hostOp (.write n v) s = (.outOfRange n, s)) ∧
    (∀ h : n < 8, hostOp (.getReg n) s = (.byte (s.reg ⟨n, h⟩), s) ∧
      ∃ t, hostOp (.setReg n v) s = (.done, t) ∧ t.reg ⟨n, h⟩ = v ∧ sameRegsBut [⟨n, h⟩] s t ∧
        t = { s with regs := t.regs }) ∧
    (8 ≤ n → hostOp (.getReg n) s = (.outOfRange n, s) ∧ hostOp (.setReg n v) s = (.outOfRange n, s))

/-- While the engine is Running, every host operation but HostGetStatus and Reset is refused with no effect; HostGetStatus answers
pc, FL, status and the fault record in their codes, in every status, and changes nothing (10_state.md, host access port; the
ports are the spec's decision D12, notes/assumptions/12.md). -/
def Obligations.HostPortIsRefusedWhileRunning : Prop :=
  (∀ (op : HostOp) (s : State), s.status = .running → op ≠ .getStatus → op ≠ .reset → hostOp op s = (.refused, s)) ∧
  (∀ s : State, hostOp .getStatus s =
    (.status ⟨s.status.code, s.pc, s.fl, s.fault.kind.code, s.fault.op.code, s.fault.value, s.fault.pc⟩, s))

/-- Start makes Idle Running and changes nothing else; in every other status it changes nothing; and nothing the host can do but
Reset leaves Halted or Faulted (70_reset_and_hazards.md, start; 60_exceptions.md, no trap return; the spec's decision D20,
notes/assumptions/18.md). -/
def Obligations.OnlyResetLeavesHaltedOrFaulted : Prop :=
  (∀ s : State, s.status = .idle → hostOp .start s = (.done, { s with status := .running })) ∧
  (∀ s : State, s.status ≠ .idle → (hostOp .start s).2 = s) ∧
  (∀ (op : HostOp) (s : State), s.status = .halted ∨ s.status = .faulted → op ≠ .reset →
    (hostOp op s).2.status = s.status)

/-- The loader puts a program of at most 256 bytes at addresses 0, 1, 2, … of the reset state, before Start, and changes nothing
else: every address the program does not reach keeps 0 (R246). -/
def Obligations.LoaderPutsTheProgramFromAddressZero : Prop :=
  ∀ program : List Byte, program.length ≤ 256 → ∃ t, loadBytes 0 program State.reset = (none, t) ∧
    (∀ k, Memory.read t.mem k = program.getD k 0) ∧ t = { State.reset with mem := t.mem }

/-- A program file with one line of eight binary digits for each byte, bit 7 first, loads exactly those bytes; from the reset
state, a file of more than 256 such lines is aborted with OutOfRange(256) and the engine is not started
(70_reset_and_hazards.md, program file format and load errors; the second is the spec's decision D23,
notes/assumptions/14.md). -/
def Obligations.ProgramFileLoadsItsBytes : Prop :=
  (∀ (program : List Byte) (s : State),
    loadLines 1 0 (program.map binaryLine) s = loadBytes 0 program s) ∧
  (∀ (program : List Byte) (s : State), 256 < program.length → ∃ t,
    bootFile (program.map binaryLine) s = (some (.outOfRange 256), t) ∧ t.status = .idle)

/-- The trace port never changes the step, and shows pc, R0 to R7 and the bytes at pc, pc + 1 and pc + 2, each absent when its
address is above 255 (60_exceptions.md, trace port, the spec's decision D17, notes/assumptions/13.md). -/
def Obligations.TracePortIsObservationalOnly : Prop :=
  ∀ (enabled : Bool) (c : LegalConfig) (s : State),
    (tracedStep enabled c s).2 = stepWith c s ∧
    s.trace.pc = s.pc ∧ s.trace.regs = s.regs ∧
    (s.pc.toNat ≤ 255 → s.trace.b0 = some (Memory.read s.mem s.pc.toNat)) ∧ (255 < s.pc.toNat → s.trace.b0 = none) ∧
    (s.pc.toNat + 1 ≤ 255 → s.trace.b1 = some (Memory.read s.mem (s.pc.toNat + 1))) ∧
    (255 < s.pc.toNat + 1 → s.trace.b1 = none) ∧
    (s.pc.toNat + 2 ≤ 255 → s.trace.b2 = some (Memory.read s.mem (s.pc.toNat + 2))) ∧
    (255 < s.pc.toNat + 2 → s.trace.b2 = none)

/-- The numbers the status outputs show, in the state HostGetStatus is asked in: status Idle 0, Running 1, Halted 2, Faulted 3;
fault_kind none 0, OutOfRange 1, UnsupportedOperation 2; fault_op none 0, fetch-opcode 1, fetch-operand 2, register-read 3,
register-write 4, stack-adjust 5, return-address 6, decode 7 (10_state.md, execution status and status outputs;
60_exceptions.md, fault codes). The numbers are the spec's decisions D11 and D18 (notes/assumptions/18.md, 11.md). -/
def Obligations.StatusOutputsShowTheCodes : Prop :=
  ∀ s : State, ∃ o, hostOp .getStatus s = (.status o, s) ∧
    o.status = (match s.status with | .idle => 0 | .running => 1 | .halted => 2 | .faulted => 3) ∧
    o.faultKind = (match s.fault.kind with | .none => 0 | .outOfRange => 1 | .unsupportedOperation => 2) ∧
    o.faultOp = (match s.fault.op with
      | .none => 0 | .fetchOpcode => 1 | .fetchOperand => 2 | .registerRead => 3
      | .registerWrite => 4 | .stackAdjust => 5 | .returnAddress => 6 | .decode => 7)
end

