-- ==== Sys2Proof/Laws/Decode.lean ====
section
/-! SUPPORT. Facts about the opcode map, the lookup of an opcode and the formats. -/

namespace Sys2Proof

theorem Opcode.mem_all (op : Opcode) : op ∈ Opcode.all := by cases op <;> decide

/-- A legal map's bytes carry the operand count in bits 7:6 (R79). -/
theorem aaField_byte {m : OpcodeMap} (h : m.legal = true) (op : Opcode) : aaField (m.byte op) = op.operandCount := by
  simp only [OpcodeMap.legal, Bool.and_eq_true, List.all_eq_true, beq_iff_eq] at h
  exact (h.1 op op.mem_all).1

/-- A legal map's bytes carry the PC-setting mark in bit 4 (R79). -/
theorem cField_byte {m : OpcodeMap} (h : m.legal = true) (op : Opcode) : cField (m.byte op) = op.setsPc := by
  simp only [OpcodeMap.legal, Bool.and_eq_true, List.all_eq_true, beq_iff_eq] at h
  exact (h.1 op op.mem_all).2

/-- A legal map gives distinct opcodes distinct bytes (R79). -/
theorem byte_injective {m : OpcodeMap} (h : m.legal = true) {op op' : Opcode} (e : m.byte op = m.byte op') : op = op' := by
  simp only [OpcodeMap.legal, Bool.and_eq_true, decide_eq_true_eq] at h
  exact List.inj_on_of_nodup_map h.2 op.mem_all op'.mem_all e

theorem opcodeOf?_some {m : OpcodeMap} {ir : Byte} {op : Opcode} (h : opcodeOf? m ir = some op) : m.byte op = ir := by
  simpa using List.find?_some h

theorem opcodeOf?_none {m : OpcodeMap} {ir : Byte} (h : opcodeOf? m ir = none) (op : Opcode) : m.byte op ≠ ir := by
  simpa using List.find?_eq_none.mp h op op.mem_all

/-- The byte of an opcode is that opcode, under a legal map. -/
theorem opcodeOf?_byte {m : OpcodeMap} (h : m.legal = true) (op : Opcode) : opcodeOf? m (m.byte op) = some op := by
  cases e : opcodeOf? m (m.byte op) with
  | none => exact absurd rfl (opcodeOf?_none e op)
  | some op' => rw [byte_injective h (opcodeOf?_some e)]

/-- The AA field is 0 to 3 (R72, R75). -/
theorem aaField_le (ir : Byte) : aaField ir ≤ 3 := by
  have := (ir.extractLsb' 6 2).isLt
  simp only [aaField]
  omega

/-- The number of operand bytes a format takes. -/
def formOperands : Form → Nat
  | .f0 _ => 0
  | .f1 _ => 1
  | .f2 _ => 2

/-- The format of an opcode takes its operand count of bytes (R71). -/
theorem formOperands_form (op : Opcode) : formOperands op.form = op.operandCount := by cases op <;> rfl

theorem decode_cons_some {m : OpcodeMap} {ir : Byte} {op : Opcode} (h : opcodeOf? m ir = some op) (rest : List Byte) :
    decode m (ir :: rest) = completeForm op.form rest := by simp [decode, h]

theorem decode_cons_none {m : OpcodeMap} {ir : Byte} (h : opcodeOf? m ir = none) (rest : List Byte) :
    decode m (ir :: rest) = .error (.unknownOpcode ir) := by simp [decode, h]

end Sys2Proof
end

