-- ==== Sys2Proof/Laws/Memory.lean ====
section
/-! SUPPORT. The laws of the memory array: read after write, and the canonical form is kept by every operation. None of the read
laws needs the canonical form. -/

namespace Sys2Proof.Machine

@[simp] theorem Memory.read_nil (addr : Nat) : Memory.read [] addr = 0 := rfl

theorem Memory.read_cons (a : Nat) (v : Byte) (m : Memory) (addr : Nat) :
    Memory.read ((a, v) :: m) addr = if addr = a then v else Memory.read m addr := rfl

theorem Memory.read_erase (m : Memory) (a addr : Nat) :
    Memory.read (Memory.erase m a) addr = if addr = a then 0 else Memory.read m addr := by
  induction m with
  | nil => simp [Memory.erase]
  | cons c m ih =>
    obtain ⟨b, v⟩ := c
    by_cases hb : b = a
    · subst hb
      have : Memory.erase ((b, v) :: m) b = Memory.erase m b := by simp [Memory.erase]
      rw [this, ih, Memory.read_cons]
      split <;> rfl
    · have : Memory.erase ((b, v) :: m) a = (b, v) :: Memory.erase m a := by simp [Memory.erase, hb]
      rw [this, Memory.read_cons, Memory.read_cons, ih]
      by_cases h : addr = b
      · subst h; simp [hb]
      · simp [h]

theorem Memory.read_insert (m : Memory) (a addr : Nat) (v : Byte) (h : ∀ c ∈ m, c.1 ≠ a) :
    Memory.read (Memory.insert m a v) addr = if addr = a then v else Memory.read m addr := by
  induction m with
  | nil => simp [Memory.insert, Memory.read_cons]
  | cons c m ih =>
    obtain ⟨b, w⟩ := c
    have hb : b ≠ a := h (b, w) (by simp)
    have ih' := ih (fun c hc => h c (by simp [hc]))
    unfold Memory.insert
    split
    · simp [Memory.read_cons]
    · rw [Memory.read_cons, ih', Memory.read_cons]
      by_cases hx : addr = b
      · subst hx; simp [hb]
      · simp [hx]

/-- A read gives the byte last written to its address, and every other address reads as before (R57). -/
theorem Memory.read_write (m : Memory) (a addr : Nat) (v : Byte) :
    Memory.read (Memory.write m a v) addr = if addr = a then v else Memory.read m addr := by
  unfold Memory.write
  split
  · next h => rw [Memory.read_erase, h]; rfl
  · rw [Memory.read_insert _ _ _ _ (by intro c hc; simpa [Memory.erase] using (List.mem_filter.mp hc).2), Memory.read_erase]
    split <;> simp_all

@[simp] theorem Memory.read_write_same (m : Memory) (a : Nat) (v : Byte) : Memory.read (Memory.write m a v) a = v := by
  simp [Memory.read_write]

theorem Memory.read_write_other (m : Memory) {a addr : Nat} (v : Byte) (h : addr ≠ a) :
    Memory.read (Memory.write m a v) addr = Memory.read m addr := by
  simp [Memory.read_write, h]

/-! ### The canonical form -/

theorem Memory.wfFrom_cons (lo a : Nat) (v : Byte) (m : Memory) :
    Memory.wfFrom lo ((a, v) :: m) = true ↔ lo ≤ a ∧ a < 256 ∧ v ≠ 0 ∧ Memory.wfFrom (a + 1) m = true := by
  simp only [Memory.wfFrom, Memory.unlisted, Bool.and_eq_true, decide_eq_true_eq, bne_iff_ne, and_assoc]

theorem Memory.wfFrom_mono {lo hi : Nat} (h : lo ≤ hi) : ∀ {m : Memory}, Memory.wfFrom hi m = true → Memory.wfFrom lo m = true
  | [], _ => rfl
  | (a, v) :: m, hm => by
    rw [Memory.wfFrom_cons] at hm ⊢
    exact ⟨by omega, hm.2⟩

theorem Memory.wfFrom_erase (a : Nat) : ∀ {lo : Nat} {m : Memory}, Memory.wfFrom lo m = true →
    Memory.wfFrom lo (Memory.erase m a) = true
  | _, [], _ => rfl
  | lo, (b, v) :: m, hm => by
    rw [Memory.wfFrom_cons] at hm
    have ih := Memory.wfFrom_erase a hm.2.2.2
    by_cases hb : b = a
    · have e : Memory.erase ((b, v) :: m) a = Memory.erase m a := by simp [Memory.erase, hb]
      rw [e]
      exact Memory.wfFrom_mono (by omega) ih
    · have e : Memory.erase ((b, v) :: m) a = (b, v) :: Memory.erase m a := by simp [Memory.erase, hb]
      rw [e, Memory.wfFrom_cons]
      exact ⟨hm.1, hm.2.1, hm.2.2.1, ih⟩

theorem Memory.wfFrom_insert (a : Nat) (v : Byte) (ha : a < 256) (hv : v ≠ 0) : ∀ {lo : Nat} {m : Memory}, lo ≤ a →
    (∀ c ∈ m, c.1 ≠ a) → Memory.wfFrom lo m = true → Memory.wfFrom lo (Memory.insert m a v) = true
  | lo, [], hlo, _, _ => by
    unfold Memory.insert
    rw [Memory.wfFrom_cons]
    exact ⟨hlo, ha, hv, rfl⟩
  | lo, (b, w) :: m, hlo, hne, hm => by
    rw [Memory.wfFrom_cons] at hm
    unfold Memory.insert
    split
    · rw [Memory.wfFrom_cons, Memory.wfFrom_cons]
      exact ⟨hlo, ha, hv, by omega, hm.2⟩
    · have hb : b ≠ a := hne (b, w) (by simp)
      rw [Memory.wfFrom_cons]
      exact ⟨hm.1, hm.2.1, hm.2.2.1,
        Memory.wfFrom_insert a v ha hv (by omega) (fun c hc => hne c (by simp [hc])) hm.2.2.2⟩

/-- A write at an address of the address space keeps the canonical form. -/
theorem Memory.wf_write {m : Memory} {a : Nat} (v : Byte) (ha : a < 256) (h : Memory.wf m = true) :
    Memory.wf (Memory.write m a v) = true := by
  unfold Memory.write
  split
  · exact Memory.wfFrom_erase a h
  · next hv =>
    refine Memory.wfFrom_insert a v ha hv (Nat.zero_le a) ?_ (Memory.wfFrom_erase a h)
    intro c hc
    simpa [Memory.erase] using (List.mem_filter.mp hc).2

/-- The empty memory, that of reset, is in canonical form. -/
@[simp] theorem Memory.wf_nil : Memory.wf [] = true := rfl

/-- Below the lowest address listed, memory reads 0. -/
theorem Memory.read_below {lo addr : Nat} (h : addr < lo) : ∀ {m : Memory}, Memory.wfFrom lo m = true → Memory.read m addr = 0
  | [], _ => rfl
  | (a, v) :: m, hm => by
    rw [Memory.wfFrom_cons] at hm
    rw [Memory.read_cons, if_neg (by omega)]
    exact Memory.read_below (by omega : addr < a + 1) hm.2.2.2

end Sys2Proof.Machine
end

