-- ==== Sys2Proof/Laws/State.lean ====
section
/-! SUPPORT. One lemma per field per update of the state, and what a register reads as after each update. -/

namespace Sys2Proof.Machine

/-! ### setReg -/

@[simp] theorem State.setReg_regs (s : State) (i : RegIx) (v : Byte) : (s.setReg i v).regs = s.regs.set i v := rfl
@[simp] theorem State.setReg_pc (s : State) (i : RegIx) (v : Byte) : (s.setReg i v).pc = s.pc := rfl
@[simp] theorem State.setReg_fl (s : State) (i : RegIx) (v : Byte) : (s.setReg i v).fl = s.fl := rfl
@[simp] theorem State.setReg_status (s : State) (i : RegIx) (v : Byte) : (s.setReg i v).status = s.status := rfl
@[simp] theorem State.setReg_fault (s : State) (i : RegIx) (v : Byte) : (s.setReg i v).fault = s.fault := rfl
@[simp] theorem State.setReg_out (s : State) (i : RegIx) (v : Byte) : (s.setReg i v).out = s.out := rfl
@[simp] theorem State.setReg_mem (s : State) (i : RegIx) (v : Byte) : (s.setReg i v).mem = s.mem := rfl

/-! ### advancePc -/

@[simp] theorem State.advancePc_regs (s : State) (n : Nat) : (s.advancePc n).regs = s.regs := rfl
@[simp] theorem State.advancePc_pc (s : State) (n : Nat) : (s.advancePc n).pc = s.pc + BitVec.ofNat 9 n := rfl
@[simp] theorem State.advancePc_fl (s : State) (n : Nat) : (s.advancePc n).fl = s.fl := rfl
@[simp] theorem State.advancePc_status (s : State) (n : Nat) : (s.advancePc n).status = s.status := rfl
@[simp] theorem State.advancePc_fault (s : State) (n : Nat) : (s.advancePc n).fault = s.fault := rfl
@[simp] theorem State.advancePc_out (s : State) (n : Nat) : (s.advancePc n).out = s.out := rfl
@[simp] theorem State.advancePc_mem (s : State) (n : Nat) : (s.advancePc n).mem = s.mem := rfl
@[simp] theorem State.advancePc_reg (s : State) (n : Nat) (j : RegIx) : (s.advancePc n).reg j = s.reg j := rfl
@[simp] theorem State.advancePc_sp (s : State) (n : Nat) : (s.advancePc n).sp = s.sp := rfl

/-! ### jumpTo -/

@[simp] theorem State.jumpTo_regs (s : State) (v : Byte) : (s.jumpTo v).regs = s.regs := rfl
@[simp] theorem State.jumpTo_pc (s : State) (v : Byte) : (s.jumpTo v).pc = v.setWidth 9 := rfl
@[simp] theorem State.jumpTo_fl (s : State) (v : Byte) : (s.jumpTo v).fl = s.fl := rfl
@[simp] theorem State.jumpTo_status (s : State) (v : Byte) : (s.jumpTo v).status = s.status := rfl
@[simp] theorem State.jumpTo_fault (s : State) (v : Byte) : (s.jumpTo v).fault = s.fault := rfl
@[simp] theorem State.jumpTo_out (s : State) (v : Byte) : (s.jumpTo v).out = s.out := rfl
@[simp] theorem State.jumpTo_mem (s : State) (v : Byte) : (s.jumpTo v).mem = s.mem := rfl
@[simp] theorem State.jumpTo_reg (s : State) (v : Byte) (j : RegIx) : (s.jumpTo v).reg j = s.reg j := rfl
@[simp] theorem State.jumpTo_sp (s : State) (v : Byte) : (s.jumpTo v).sp = s.sp := rfl

/-! ### emit -/

@[simp] theorem State.emit_regs (s : State) (v : Byte) : (s.emit v).regs = s.regs := rfl
@[simp] theorem State.emit_pc (s : State) (v : Byte) : (s.emit v).pc = s.pc := rfl
@[simp] theorem State.emit_fl (s : State) (v : Byte) : (s.emit v).fl = s.fl := rfl
@[simp] theorem State.emit_status (s : State) (v : Byte) : (s.emit v).status = s.status := rfl
@[simp] theorem State.emit_fault (s : State) (v : Byte) : (s.emit v).fault = s.fault := rfl
@[simp] theorem State.emit_out (s : State) (v : Byte) : (s.emit v).out = s.out ++ [v] := rfl
@[simp] theorem State.emit_mem (s : State) (v : Byte) : (s.emit v).mem = s.mem := rfl
@[simp] theorem State.emit_reg (s : State) (v : Byte) (j : RegIx) : (s.emit v).reg j = s.reg j := rfl
@[simp] theorem State.emit_sp (s : State) (v : Byte) : (s.emit v).sp = s.sp := rfl

/-! ### setFl -/

@[simp] theorem State.setFl_regs (s : State) (v : Byte) : (s.setFl v).regs = s.regs := rfl
@[simp] theorem State.setFl_pc (s : State) (v : Byte) : (s.setFl v).pc = s.pc := rfl
@[simp] theorem State.setFl_fl (s : State) (v : Byte) : (s.setFl v).fl = v := rfl
@[simp] theorem State.setFl_status (s : State) (v : Byte) : (s.setFl v).status = s.status := rfl
@[simp] theorem State.setFl_fault (s : State) (v : Byte) : (s.setFl v).fault = s.fault := rfl
@[simp] theorem State.setFl_out (s : State) (v : Byte) : (s.setFl v).out = s.out := rfl
@[simp] theorem State.setFl_mem (s : State) (v : Byte) : (s.setFl v).mem = s.mem := rfl
@[simp] theorem State.setFl_reg (s : State) (v : Byte) (j : RegIx) : (s.setFl v).reg j = s.reg j := rfl
@[simp] theorem State.setFl_sp (s : State) (v : Byte) : (s.setFl v).sp = s.sp := rfl

/-! ### setStatus -/

@[simp] theorem State.setStatus_regs (s : State) (v : Status) : (s.setStatus v).regs = s.regs := rfl
@[simp] theorem State.setStatus_pc (s : State) (v : Status) : (s.setStatus v).pc = s.pc := rfl
@[simp] theorem State.setStatus_fl (s : State) (v : Status) : (s.setStatus v).fl = s.fl := rfl
@[simp] theorem State.setStatus_status (s : State) (v : Status) : (s.setStatus v).status = v := rfl
@[simp] theorem State.setStatus_fault (s : State) (v : Status) : (s.setStatus v).fault = s.fault := rfl
@[simp] theorem State.setStatus_out (s : State) (v : Status) : (s.setStatus v).out = s.out := rfl
@[simp] theorem State.setStatus_mem (s : State) (v : Status) : (s.setStatus v).mem = s.mem := rfl
@[simp] theorem State.setStatus_reg (s : State) (v : Status) (j : RegIx) : (s.setStatus v).reg j = s.reg j := rfl
@[simp] theorem State.setStatus_sp (s : State) (v : Status) : (s.setStatus v).sp = s.sp := rfl

/-! ### storeByte -/

@[simp] theorem State.storeByte_regs (s : State) (addr v : Byte) : (s.storeByte addr v).regs = s.regs := rfl
@[simp] theorem State.storeByte_pc (s : State) (addr v : Byte) : (s.storeByte addr v).pc = s.pc := rfl
@[simp] theorem State.storeByte_fl (s : State) (addr v : Byte) : (s.storeByte addr v).fl = s.fl := rfl
@[simp] theorem State.storeByte_status (s : State) (addr v : Byte) : (s.storeByte addr v).status = s.status := rfl
@[simp] theorem State.storeByte_fault (s : State) (addr v : Byte) : (s.storeByte addr v).fault = s.fault := rfl
@[simp] theorem State.storeByte_out (s : State) (addr v : Byte) : (s.storeByte addr v).out = s.out := rfl
@[simp] theorem State.storeByte_mem (s : State) (addr v : Byte) : (s.storeByte addr v).mem = Memory.write s.mem addr.toNat v := rfl
@[simp] theorem State.storeByte_reg (s : State) (addr v : Byte) (j : RegIx) : (s.storeByte addr v).reg j = s.reg j := rfl
@[simp] theorem State.storeByte_sp (s : State) (addr v : Byte) : (s.storeByte addr v).sp = s.sp := rfl

/-! ### enterFaulted -/

@[simp] theorem State.enterFaulted_regs (s : State) (op : FaultOp) (value : Int) : (s.enterFaulted op value).regs = s.regs := rfl
@[simp] theorem State.enterFaulted_pc (s : State) (op : FaultOp) (value : Int) : (s.enterFaulted op value).pc = s.pc := rfl
@[simp] theorem State.enterFaulted_fl (s : State) (op : FaultOp) (value : Int) : (s.enterFaulted op value).fl = s.fl := rfl
@[simp] theorem State.enterFaulted_status (s : State) (op : FaultOp) (value : Int) : (s.enterFaulted op value).status = .faulted := rfl
@[simp] theorem State.enterFaulted_fault (s : State) (op : FaultOp) (value : Int) : (s.enterFaulted op value).fault = ⟨op.kind, op, value, s.pc⟩ := rfl
@[simp] theorem State.enterFaulted_out (s : State) (op : FaultOp) (value : Int) : (s.enterFaulted op value).out = s.out := rfl
@[simp] theorem State.enterFaulted_mem (s : State) (op : FaultOp) (value : Int) : (s.enterFaulted op value).mem = s.mem := rfl
@[simp] theorem State.enterFaulted_reg (s : State) (op : FaultOp) (value : Int) (j : RegIx) : (s.enterFaulted op value).reg j = s.reg j := rfl
@[simp] theorem State.enterFaulted_sp (s : State) (op : FaultOp) (value : Int) : (s.enterFaulted op value).sp = s.sp := rfl

/-! ### Registers -/

/-- A register holds whatever was last written to it (R20). -/
@[simp] theorem State.reg_setReg_same (s : State) (i : RegIx) (v : Byte) : (s.setReg i v).reg i = v := by
  simp [State.reg, State.setReg]

/-- Writing one register leaves the others. -/
theorem State.reg_setReg_other (s : State) {i j : RegIx} (v : Byte) (h : j ≠ i) : (s.setReg i v).reg j = s.reg j := by
  have h' : i.val ≠ j.val := fun e => h (Fin.ext e.symm)
  simp [State.reg, State.setReg, Vector.getElem_set_ne _ _ h']

theorem State.sp_eq_reg (s : State) : s.sp = s.reg spIx := rfl

@[simp] theorem State.sp_setReg_sp (s : State) (v : Byte) : (s.setReg spIx v).sp = v := State.reg_setReg_same s spIx v

theorem State.sp_setReg_other (s : State) {i : RegIx} (v : Byte) (h : i ≠ spIx) : (s.setReg i v).sp = s.sp :=
  State.reg_setReg_other s v h.symm

/-- Register files that agree on every register are the same. -/
theorem State.regs_ext {s t : State} (h : ∀ i, t.reg i = s.reg i) : t.regs = s.regs := by
  apply Vector.ext
  intro k hk
  simpa [State.reg] using h ⟨k, hk⟩

/-- Two states with the same fields are the same. -/
theorem State.ext_fields {s t : State} (h1 : s.regs = t.regs) (h2 : s.pc = t.pc) (h3 : s.fl = t.fl) (h4 : s.status = t.status)
    (h5 : s.fault = t.fault) (h6 : s.out = t.out) (h7 : s.mem = t.mem) : s = t := by
  cases s; cases t; simp_all

/-! ### Reset -/

@[simp] theorem State.reset_pc : State.reset.pc = 0 := rfl
@[simp] theorem State.reset_fl : State.reset.fl = 0 := rfl
@[simp] theorem State.reset_status : State.reset.status = .idle := rfl
@[simp] theorem State.reset_fault : State.reset.fault = FaultRecord.zero := rfl
@[simp] theorem State.reset_out : State.reset.out = [] := rfl
@[simp] theorem State.reset_mem : State.reset.mem = [] := rfl
@[simp] theorem State.reset_sp : State.reset.sp = 0xF4 := rfl

end Sys2Proof.Machine
end

