-- ==== Sys2Proof/Laws/Ops.lean ====
section
/-! SUPPORT. One lemma per shared operation that says everything it can do, and the small facts that apply it. -/

namespace Sys2Proof.Machine

/-! ### Bytes -/

theorem byte_lt (v : Byte) : v.toNat < 256 := v.isLt

theorem byte_eq_zero {v : Byte} : v = 0 ↔ v.toNat = 0 :=
  ⟨fun h => by rw [h]; rfl, fun h => BitVec.eq_of_toNat_eq (by rw [h]; rfl)⟩

theorem byte_eq_255 {v : Byte} : v = 255 ↔ v.toNat = 255 :=
  ⟨fun h => by rw [h]; rfl, fun h => BitVec.eq_of_toNat_eq (by rw [h]; rfl)⟩

/-- A decrement that passed the check of R161 is exact. -/
theorem byte_sub_one_toNat {v : Byte} (h : v ≠ 0) : (v - 1).toNat = v.toNat - 1 := by
  have h1 : v.toNat ≠ 0 := fun e => h (byte_eq_zero.mpr e)
  have h2 := byte_lt v
  rw [BitVec.toNat_sub, show (1 : Byte).toNat = 1 from rfl]
  omega

/-- An increment that passed the check of R161 is exact. -/
theorem byte_add_one_toNat {v : Byte} (h : v ≠ 255) : (v + 1).toNat = v.toNat + 1 := by
  have h1 : v.toNat ≠ 255 := fun e => h (byte_eq_255.mpr e)
  have h2 := byte_lt v
  rw [BitVec.toNat_add, show (1 : Byte).toNat = 1 from rfl]
  omega

/-- The advance of pc from an address of memory is exact (R107: not reduced modulo 256). -/
theorem State.advancePc_toNat (s : State) {n : Nat} (h : s.pc.toNat + n < 512) : (s.advancePc n).pc.toNat = s.pc.toNat + n := by
  rw [State.advancePc_pc, BitVec.toNat_add, BitVec.toNat_ofNat]
  omega

theorem State.jumpTo_toNat (s : State) (v : Byte) : (s.jumpTo v).pc.toNat = v.toNat := by
  have := byte_lt v
  rw [State.jumpTo_pc, BitVec.toNat_setWidth]
  omega

/-! ### Taking a fault -/

theorem raise_eq (s : State) (op : FaultOp) (v : Int) : raise s op v = .next (s.enterFaulted op v) := rfl

/-! ### Checked accesses -/

theorem readChecked_in {s : State} {op : FaultOp} {addr : Nat} {k : Byte → Result} (h : addr ≤ 255) :
    readChecked s op addr k = k (Memory.read s.mem addr) := if_pos h

theorem readChecked_out {s : State} {op : FaultOp} {addr : Nat} {k : Byte → Result} (h : 255 < addr) :
    readChecked s op addr k = raise s op addr := if_neg (by omega)

/-- A checked read goes on with the byte or raises. -/
theorem readChecked_cases {s : State} {op : FaultOp} {addr : Nat} {k : Byte → Result} {r : Result}
    (h : readChecked s op addr k = r) :
    (addr ≤ 255 ∧ k (Memory.read s.mem addr) = r) ∨ (255 < addr ∧ r = raise s op addr) := by
  by_cases ha : addr ≤ 255
  · exact .inl ⟨ha, by rw [← h, readChecked_in ha]⟩
  · exact .inr ⟨by omega, by rw [← h, readChecked_out (by omega)]⟩

/-! ### Stack pointer -/

theorem decrementSp_in {s : State} {k : State → Result} (h : s.sp ≠ 0) : decrementSp s k = k (s.setReg spIx (s.sp - 1)) :=
  if_neg h

theorem decrementSp_out {s : State} {k : State → Result} (h : s.sp = 0) : decrementSp s k = raise s .stackAdjust (-1) :=
  if_pos h

/-- The decrement of PUSH and CALL goes on with SP - 1 or raises (R161). -/
theorem decrementSp_cases {s : State} {k : State → Result} {r : Result} (h : decrementSp s k = r) :
    (s.sp ≠ 0 ∧ k (s.setReg spIx (s.sp - 1)) = r) ∨ (s.sp = 0 ∧ r = raise s .stackAdjust (-1)) := by
  by_cases hs : s.sp = 0
  · exact .inr ⟨hs, by rw [← h, decrementSp_out hs]⟩
  · exact .inl ⟨hs, by rw [← h, decrementSp_in hs]⟩

theorem incrementSp_in {s w : State} {k : State → Result} (h : w.sp ≠ 255) :
    incrementSp s w k = k (w.setReg spIx (w.sp + 1)) := if_neg h

theorem incrementSp_out {s w : State} {k : State → Result} (h : w.sp = 255) :
    incrementSp s w k = raise s .stackAdjust 256 := if_pos h

/-- The increment of POP and RET goes on with SP + 1 or raises (R161). -/
theorem incrementSp_cases {s w : State} {k : State → Result} {r : Result} (h : incrementSp s w k = r) :
    (w.sp ≠ 255 ∧ k (w.setReg spIx (w.sp + 1)) = r) ∨ (w.sp = 255 ∧ r = raise s .stackAdjust 256) := by
  by_cases hs : w.sp = 255
  · exact .inr ⟨hs, by rw [← h, incrementSp_out hs]⟩
  · exact .inl ⟨hs, by rw [← h, incrementSp_in hs]⟩

theorem withReturnAddress_in {s : State} {k : Byte → Result} (h : s.pc.toNat + 2 ≤ 255) :
    withReturnAddress s k = k (BitVec.ofNat 8 (s.pc.toNat + 2)) := if_pos h

theorem withReturnAddress_out {s : State} {k : Byte → Result} (h : 255 < s.pc.toNat + 2) :
    withReturnAddress s k = raise s .returnAddress (s.pc.toNat + 2 : Nat) := if_neg (by omega)

/-- The return address of CALL fits a byte or raises (R182). -/
theorem withReturnAddress_cases {s : State} {k : Byte → Result} {r : Result} (h : withReturnAddress s k = r) :
    (s.pc.toNat + 2 ≤ 255 ∧ k (BitVec.ofNat 8 (s.pc.toNat + 2)) = r) ∨
      (255 < s.pc.toNat + 2 ∧ r = raise s .returnAddress (s.pc.toNat + 2 : Nat)) := by
  by_cases hs : s.pc.toNat + 2 ≤ 255
  · exact .inl ⟨hs, by rw [← h, withReturnAddress_in hs]⟩
  · exact .inr ⟨by omega, by rw [← h, withReturnAddress_out (by omega)]⟩

/-! ### Register operands -/

theorem registerIndex?_lt {a : Byte} (h : a.toNat < 8) : registerIndex? a = some ⟨a.toNat, h⟩ := dif_pos h

theorem registerIndex?_ge {a : Byte} (h : 8 ≤ a.toNat) : registerIndex? a = none := dif_neg (by omega)

theorem regByte_toNat (i : RegIx) : (regByte i).toNat = i.val := by
  have := i.isLt
  simp only [regByte, BitVec.toNat_ofNat]
  omega

@[simp] theorem registerIndex?_regByte (i : RegIx) : registerIndex? (regByte i) = some i := by
  have h : (regByte i).toNat < 8 := by rw [regByte_toNat]; exact i.isLt
  rw [registerIndex?_lt h]
  congr 1
  exact Fin.ext (regByte_toNat i)

/-- An operand byte below 8 is the byte of the register it names. -/
theorem regByte_of_lt {a : Byte} (h : a.toNat < 8) : regByte ⟨a.toNat, h⟩ = a :=
  BitVec.eq_of_toNat_eq (by rw [regByte_toNat])

@[simp] theorem withRegister_regByte (s : State) (op : FaultOp) (i : RegIx) (k : RegIx → Result) :
    withRegister s op (regByte i) k = k i := by
  simp [withRegister]

@[simp] theorem withReadOperand_regByte (s : State) (i : RegIx) (k : RegIx → Result) :
    withReadOperand s (regByte i) k = k i := withRegister_regByte s _ i k

@[simp] theorem withWriteOperand_regByte (s : State) (i : RegIx) (k : RegIx → Result) :
    withWriteOperand s (regByte i) k = k i := withRegister_regByte s _ i k

theorem withRegister_ge {s : State} {op : FaultOp} {a : Byte} {k : RegIx → Result} (h : 8 ≤ a.toNat) :
    withRegister s op a k = raise s op a.toNat := by
  simp [withRegister, registerIndex?_ge h]

/-- A register operand, as one conditional on the operand byte (R24). -/
theorem withRegister_eq (s : State) (op : FaultOp) (a : Byte) (k : RegIx → Result) :
    withRegister s op a k = if h : a.toNat < 8 then k ⟨a.toNat, h⟩ else raise s op a.toNat := by
  split
  · next h => rw [withRegister, registerIndex?_lt h]
  · next h => exact withRegister_ge (by omega)

/-- SP after a write to the register an operand byte names. -/
theorem sp_setReg_byte (s : State) (a : Byte) (h : a.toNat < 8) (v : Byte) :
    (s.setReg ⟨a.toNat, h⟩ v).sp = if a.toNat = 7 then v else s.sp := by
  split
  · next e => rw [show (⟨a.toNat, h⟩ : RegIx) = spIx from Fin.ext e, State.sp_setReg_sp]
  · next e => exact State.sp_setReg_other s v (fun x => e (congrArg Fin.val x))

/-- A register operand is a register or raises (R24). -/
theorem withRegister_cases {s : State} {op : FaultOp} {a : Byte} {k : RegIx → Result} {r : Result}
    (h : withRegister s op a k = r) :
    (∃ i, a = regByte i ∧ k i = r) ∨ (8 ≤ a.toNat ∧ r = raise s op a.toNat) := by
  by_cases ha : a.toNat < 8
  · refine .inl ⟨⟨a.toNat, ha⟩, (regByte_of_lt ha).symm, ?_⟩
    rw [← h, withRegister, registerIndex?_lt ha]
  · exact .inr ⟨by omega, by rw [← h, withRegister_ge (by omega)]⟩

theorem withReadOperand_cases {s : State} {a : Byte} {k : RegIx → Result} {r : Result} (h : withReadOperand s a k = r) :
    (∃ i, a = regByte i ∧ k i = r) ∨ (8 ≤ a.toNat ∧ r = raise s .registerRead a.toNat) := withRegister_cases h

theorem withWriteOperand_cases {s : State} {a : Byte} {k : RegIx → Result} {r : Result} (h : withWriteOperand s a k = r) :
    (∃ i, a = regByte i ∧ k i = r) ∨ (8 ≤ a.toNat ∧ r = raise s .registerWrite a.toNat) := withRegister_cases h

/-! ### Flags -/

/-- CMP leaves one of the three legal results in FL (R146). -/
theorem compareFlags_cases (x y : Byte) : compareFlags x y = 0x01 ∨ compareFlags x y = 0x02 ∨ compareFlags x y = 0x04 := by
  unfold compareFlags
  split
  · exact .inl rfl
  · split
    · exact .inr (.inl rfl)
    · exact .inr (.inr rfl)

end Sys2Proof.Machine
end

