-- ==== Sys2Proof/Laws/Exec.lean ====
section
/-! SUPPORT. For each instruction, what its meaning answers on a register that exists (`exec…_in`), and one inversion lemma that
says everything it can do, the faults included (`exec…_cases`). There is no other outcome than a next state. -/

namespace Sys2Proof.Machine

/-! ### On registers that exist -/

theorem execLdi_in (s : State) (i : RegIx) (b : Byte) : execLdi (regByte i) b s = .next ((s.setReg i b).advancePc 3) :=
  withWriteOperand_regByte s i _

theorem execPrn_in (s : State) (i : RegIx) : execPrn (regByte i) s = .next ((s.emit (s.reg i)).advancePc 2) :=
  withReadOperand_regByte s i _

theorem execMul_in (s : State) (i j : RegIx) :
    execMul (regByte i) (regByte j) s = .next ((s.setReg i (aluMul (s.reg i) (s.reg j))).advancePc 3) := by
  simp only [execMul, withReadOperand_regByte]

theorem execAdd_in (s : State) (i j : RegIx) :
    execAdd (regByte i) (regByte j) s = .next ((s.setReg i (aluAdd (s.reg i) (s.reg j))).advancePc 3) := by
  simp only [execAdd, withReadOperand_regByte]

theorem execCmp_in (s : State) (i j : RegIx) :
    execCmp (regByte i) (regByte j) s = .next ((s.setFl (compareFlags (s.reg i) (s.reg j))).advancePc 3) := by
  simp only [execCmp, withReadOperand_regByte]

theorem execPush_in {s : State} (i : RegIx) (h : s.sp ≠ 0) : execPush (regByte i) s =
    .next (((s.setReg spIx (s.sp - 1)).storeByte (s.sp - 1) ((s.setReg spIx (s.sp - 1)).reg i)).advancePc 2) := by
  simp only [execPush, withReadOperand_regByte, decrementSp_in h, State.sp_setReg_sp]

theorem execPop_in {s : State} (i : RegIx) (h : (s.setReg i (s.loadByte s.sp)).sp ≠ 255) : execPop (regByte i) s =
    .next (((s.setReg i (s.loadByte s.sp)).setReg spIx ((s.setReg i (s.loadByte s.sp)).sp + 1)).advancePc 2) := by
  simp only [execPop, withWriteOperand_regByte, incrementSp_in h]

theorem execCall_in {s : State} (i : RegIx) (h : s.sp ≠ 0) (hp : s.pc.toNat + 2 ≤ 255) : execCall (regByte i) s =
    .next (((s.setReg spIx (s.sp - 1)).storeByte (s.sp - 1) (BitVec.ofNat 8 (s.pc.toNat + 2))).jumpTo
      ((s.setReg spIx (s.sp - 1)).reg i)) := by
  simp only [execCall, withReadOperand_regByte, decrementSp_in h, withReturnAddress_in hp, State.sp_setReg_sp]

theorem execRet_in {s : State} (h : s.sp ≠ 255) :
    execRet s = .next ((s.setReg spIx (s.sp + 1)).jumpTo (s.loadByte s.sp)) := incrementSp_in h

theorem execJmp_in (s : State) (i : RegIx) : execJmp (regByte i) s = .next (s.jumpTo (s.reg i)) :=
  withReadOperand_regByte s i _

theorem execJeq_taken {s : State} (h : flagE s.fl = true) (a : Byte) :
    execJeq a s = withReadOperand s a fun i => .next (s.jumpTo (s.reg i)) := by simp only [execJeq, h, if_true]

theorem execJeq_notTaken {s : State} (h : flagE s.fl = false) (a : Byte) : execJeq a s = .next (s.advancePc 2) := by
  simp only [execJeq, h, Bool.false_eq_true, if_false]

theorem execJne_taken {s : State} (h : flagE s.fl = false) (a : Byte) :
    execJne a s = withReadOperand s a fun i => .next (s.jumpTo (s.reg i)) := by
  simp only [execJne, h, Bool.false_eq_true, if_false]

theorem execJne_notTaken {s : State} (h : flagE s.fl = true) (a : Byte) : execJne a s = .next (s.advancePc 2) := by
  simp only [execJne, h, if_true]

/-! ### Everything they can answer -/

theorem execLdi_cases {a b : Byte} {s : State} {r : Result} (h : execLdi a b s = r) :
    (∃ i, a = regByte i ∧ r = .next ((s.setReg i b).advancePc 3)) ∨
    (8 ≤ a.toNat ∧ r = raise s .registerWrite a.toNat) := by
  obtain ⟨i, ha, hr⟩ | hf := withWriteOperand_cases h
  · exact .inl ⟨i, ha, hr.symm⟩
  · exact .inr hf

theorem execPrn_cases {a : Byte} {s : State} {r : Result} (h : execPrn a s = r) :
    (∃ i, a = regByte i ∧ r = .next ((s.emit (s.reg i)).advancePc 2)) ∨
    (8 ≤ a.toNat ∧ r = raise s .registerRead a.toNat) := by
  obtain ⟨i, ha, hr⟩ | hf := withReadOperand_cases h
  · exact .inl ⟨i, ha, hr.symm⟩
  · exact .inr hf

theorem execHlt_eq (s : State) : execHlt s = .next ((s.setStatus .halted).advancePc 1) := rfl

/-- The shape of MUL, ADD and CMP: two register operands, a before b (R216). -/
theorem twoReads_cases {a b : Byte} {s : State} {k : RegIx → RegIx → Result} {r : Result}
    (h : (withReadOperand s a fun i => withReadOperand s b fun j => k i j) = r) :
    (∃ i j, a = regByte i ∧ b = regByte j ∧ r = k i j) ∨
    (8 ≤ a.toNat ∧ r = raise s .registerRead a.toNat) ∨
    (a.toNat < 8 ∧ 8 ≤ b.toNat ∧ r = raise s .registerRead b.toNat) := by
  obtain ⟨i, ha, hr⟩ | hf := withReadOperand_cases h
  · obtain ⟨j, hb, hr⟩ | hf := withReadOperand_cases hr
    · exact .inl ⟨i, j, ha, hb, hr.symm⟩
    · exact .inr (.inr ⟨by rw [ha, regByte_toNat]; exact i.isLt, hf⟩)
  · exact .inr (.inl hf)

theorem execMul_cases {a b : Byte} {s : State} {r : Result} (h : execMul a b s = r) :
    (∃ i j, a = regByte i ∧ b = regByte j ∧ r = .next ((s.setReg i (aluMul (s.reg i) (s.reg j))).advancePc 3)) ∨
    (8 ≤ a.toNat ∧ r = raise s .registerRead a.toNat) ∨
    (a.toNat < 8 ∧ 8 ≤ b.toNat ∧ r = raise s .registerRead b.toNat) := twoReads_cases h

theorem execAdd_cases {a b : Byte} {s : State} {r : Result} (h : execAdd a b s = r) :
    (∃ i j, a = regByte i ∧ b = regByte j ∧ r = .next ((s.setReg i (aluAdd (s.reg i) (s.reg j))).advancePc 3)) ∨
    (8 ≤ a.toNat ∧ r = raise s .registerRead a.toNat) ∨
    (a.toNat < 8 ∧ 8 ≤ b.toNat ∧ r = raise s .registerRead b.toNat) := twoReads_cases h

theorem execCmp_cases {a b : Byte} {s : State} {r : Result} (h : execCmp a b s = r) :
    (∃ i j, a = regByte i ∧ b = regByte j ∧ r = .next ((s.setFl (compareFlags (s.reg i) (s.reg j))).advancePc 3)) ∨
    (8 ≤ a.toNat ∧ r = raise s .registerRead a.toNat) ∨
    (a.toNat < 8 ∧ 8 ≤ b.toNat ∧ r = raise s .registerRead b.toNat) := twoReads_cases h

theorem execPush_cases {a : Byte} {s : State} {r : Result} (h : execPush a s = r) :
    (∃ i, a = regByte i ∧ s.sp ≠ 0 ∧
      r = .next (((s.setReg spIx (s.sp - 1)).storeByte (s.sp - 1) ((s.setReg spIx (s.sp - 1)).reg i)).advancePc 2)) ∨
    (8 ≤ a.toNat ∧ r = raise s .registerRead a.toNat) ∨
    (a.toNat < 8 ∧ s.sp = 0 ∧ r = raise s .stackAdjust (-1)) := by
  obtain ⟨i, ha, hr⟩ | hf := withReadOperand_cases h
  · obtain ⟨hs, hr⟩ | hf := decrementSp_cases hr
    · rw [State.sp_setReg_sp] at hr
      exact .inl ⟨i, ha, hs, hr.symm⟩
    · exact .inr (.inr ⟨by rw [ha, regByte_toNat]; exact i.isLt, hf⟩)
  · exact .inr (.inl hf)

theorem execPop_cases {a : Byte} {s : State} {r : Result} (h : execPop a s = r) :
    (∃ i, a = regByte i ∧ (s.setReg i (s.loadByte s.sp)).sp ≠ 255 ∧
      r = .next (((s.setReg i (s.loadByte s.sp)).setReg spIx ((s.setReg i (s.loadByte s.sp)).sp + 1)).advancePc 2)) ∨
    (8 ≤ a.toNat ∧ r = raise s .registerWrite a.toNat) ∨
    (∃ i, a = regByte i ∧ (s.setReg i (s.loadByte s.sp)).sp = 255 ∧ r = raise s .stackAdjust 256) := by
  obtain ⟨i, ha, hr⟩ | hf := withWriteOperand_cases h
  · obtain ⟨hs, hr⟩ | hf := incrementSp_cases hr
    · exact .inl ⟨i, ha, hs, hr.symm⟩
    · exact .inr (.inr ⟨i, ha, hf⟩)
  · exact .inr (.inl hf)

theorem execCall_cases {a : Byte} {s : State} {r : Result} (h : execCall a s = r) :
    (∃ i, a = regByte i ∧ s.sp ≠ 0 ∧ s.pc.toNat + 2 ≤ 255 ∧
      r = .next (((s.setReg spIx (s.sp - 1)).storeByte (s.sp - 1) (BitVec.ofNat 8 (s.pc.toNat + 2))).jumpTo
        ((s.setReg spIx (s.sp - 1)).reg i))) ∨
    (8 ≤ a.toNat ∧ r = raise s .registerRead a.toNat) ∨
    (a.toNat < 8 ∧ s.sp = 0 ∧ r = raise s .stackAdjust (-1)) ∨
    (a.toNat < 8 ∧ s.sp ≠ 0 ∧ 255 < s.pc.toNat + 2 ∧ r = raise s .returnAddress (s.pc.toNat + 2 : Nat)) := by
  obtain ⟨i, ha, hr⟩ | hf := withReadOperand_cases h
  · have hlt : a.toNat < 8 := by rw [ha, regByte_toNat]; exact i.isLt
    obtain ⟨hs, hr⟩ | ⟨hs, hf⟩ := decrementSp_cases hr
    · obtain ⟨hp, hr⟩ | ⟨hp, hf⟩ := withReturnAddress_cases hr
      · rw [State.sp_setReg_sp] at hr
        exact .inl ⟨i, ha, hs, hp, hr.symm⟩
      · exact .inr (.inr (.inr ⟨hlt, hs, hp, hf⟩))
    · exact .inr (.inr (.inl ⟨hlt, hs, hf⟩))
  · exact .inr (.inl hf)

theorem execRet_cases {s : State} {r : Result} (h : execRet s = r) :
    (s.sp ≠ 255 ∧ r = .next ((s.setReg spIx (s.sp + 1)).jumpTo (s.loadByte s.sp))) ∨
    (s.sp = 255 ∧ r = raise s .stackAdjust 256) := by
  obtain ⟨hs, hr⟩ | hf := incrementSp_cases h
  · exact .inl ⟨hs, hr.symm⟩
  · exact .inr hf

theorem execJmp_cases {a : Byte} {s : State} {r : Result} (h : execJmp a s = r) :
    (∃ i, a = regByte i ∧ r = .next (s.jumpTo (s.reg i))) ∨ (8 ≤ a.toNat ∧ r = raise s .registerRead a.toNat) := by
  obtain ⟨i, ha, hr⟩ | hf := withReadOperand_cases h
  · exact .inl ⟨i, ha, hr.symm⟩
  · exact .inr hf

theorem execJeq_cases {a : Byte} {s : State} {r : Result} (h : execJeq a s = r) :
    (flagE s.fl = true ∧ ∃ i, a = regByte i ∧ r = .next (s.jumpTo (s.reg i))) ∨
    (flagE s.fl = false ∧ r = .next (s.advancePc 2)) ∨
    (flagE s.fl = true ∧ 8 ≤ a.toNat ∧ r = raise s .registerRead a.toNat) := by
  unfold execJeq at h
  split at h
  · next hE =>
    obtain ⟨i, ha, hr⟩ | hf := withReadOperand_cases h
    · exact .inl ⟨hE, i, ha, hr.symm⟩
    · exact .inr (.inr ⟨hE, hf⟩)
  · next hE => exact .inr (.inl ⟨by simpa using hE, h.symm⟩)

theorem execJne_cases {a : Byte} {s : State} {r : Result} (h : execJne a s = r) :
    (flagE s.fl = false ∧ ∃ i, a = regByte i ∧ r = .next (s.jumpTo (s.reg i))) ∨
    (flagE s.fl = true ∧ r = .next (s.advancePc 2)) ∨
    (flagE s.fl = false ∧ 8 ≤ a.toNat ∧ r = raise s .registerRead a.toNat) := by
  unfold execJne at h
  split at h
  · next hE => exact .inr (.inl ⟨hE, h.symm⟩)
  · next hE =>
    have hE' : flagE s.fl = false := by simpa using hE
    obtain ⟨i, ha, hr⟩ | hf := withReadOperand_cases h
    · exact .inl ⟨hE', i, ha, hr.symm⟩
    · exact .inr (.inr ⟨hE', hf⟩)

/-! ### All instructions at once -/

/-- An instruction that answers a next state either takes a fault, and then changes nothing but status and record, or leaves the
fault record alone and changes status only by HLT. -/
theorem exec_next_cases {i : Instr} {s t : State} (h : exec i s = .next t) :
    (∃ op v, op ≠ .none ∧ op ≠ .decode ∧ t = s.enterFaulted op v) ∨
    (t.fault = s.fault ∧ (t.status = s.status ∨ (i = .hlt ∧ t.status = .halted))) := by
  cases i
  case ldi a b =>
    rcases execLdi_cases h with ⟨i, -, e⟩ | ⟨-, e⟩
    · cases e; exact .inr ⟨rfl, .inl rfl⟩
    · cases e; exact .inl ⟨_, _, by simp, by simp, rfl⟩
  case prn a =>
    rcases execPrn_cases h with ⟨i, -, e⟩ | ⟨-, e⟩
    · cases e; exact .inr ⟨rfl, .inl rfl⟩
    · cases e; exact .inl ⟨_, _, by simp, by simp, rfl⟩
  case hlt => cases h; exact .inr ⟨rfl, .inr ⟨rfl, rfl⟩⟩
  case mul a b =>
    rcases execMul_cases h with ⟨i, j, -, -, e⟩ | ⟨-, e⟩ | ⟨-, -, e⟩ <;> cases e
    · exact .inr ⟨rfl, .inl rfl⟩
    · exact .inl ⟨_, _, by simp, by simp, rfl⟩
    · exact .inl ⟨_, _, by simp, by simp, rfl⟩
  case add a b =>
    rcases execAdd_cases h with ⟨i, j, -, -, e⟩ | ⟨-, e⟩ | ⟨-, -, e⟩ <;> cases e
    · exact .inr ⟨rfl, .inl rfl⟩
    · exact .inl ⟨_, _, by simp, by simp, rfl⟩
    · exact .inl ⟨_, _, by simp, by simp, rfl⟩
  case cmp a b =>
    rcases execCmp_cases h with ⟨i, j, -, -, e⟩ | ⟨-, e⟩ | ⟨-, -, e⟩ <;> cases e
    · exact .inr ⟨rfl, .inl rfl⟩
    · exact .inl ⟨_, _, by simp, by simp, rfl⟩
    · exact .inl ⟨_, _, by simp, by simp, rfl⟩
  case push a =>
    rcases execPush_cases h with ⟨i, -, -, e⟩ | ⟨-, e⟩ | ⟨-, -, e⟩ <;> cases e
    · exact .inr ⟨rfl, .inl rfl⟩
    · exact .inl ⟨_, _, by simp, by simp, rfl⟩
    · exact .inl ⟨_, _, by simp, by simp, rfl⟩
  case pop a =>
    rcases execPop_cases h with ⟨i, -, -, e⟩ | ⟨-, e⟩ | ⟨i, -, -, e⟩ <;> cases e
    · exact .inr ⟨rfl, .inl rfl⟩
    · exact .inl ⟨_, _, by simp, by simp, rfl⟩
    · exact .inl ⟨_, _, by simp, by simp, rfl⟩
  case call a =>
    rcases execCall_cases h with ⟨i, -, -, -, e⟩ | ⟨-, e⟩ | ⟨-, -, e⟩ | ⟨-, -, -, e⟩ <;> cases e
    · exact .inr ⟨rfl, .inl rfl⟩
    · exact .inl ⟨_, _, by simp, by simp, rfl⟩
    · exact .inl ⟨_, _, by simp, by simp, rfl⟩
    · exact .inl ⟨_, _, by simp, by simp, rfl⟩
  case ret =>
    rcases execRet_cases h with ⟨-, e⟩ | ⟨-, e⟩ <;> cases e
    · exact .inr ⟨rfl, .inl rfl⟩
    · exact .inl ⟨_, _, by simp, by simp, rfl⟩
  case jmp a =>
    rcases execJmp_cases h with ⟨i, -, e⟩ | ⟨-, e⟩ <;> cases e
    · exact .inr ⟨rfl, .inl rfl⟩
    · exact .inl ⟨_, _, by simp, by simp, rfl⟩
  case jeq a =>
    rcases execJeq_cases h with ⟨-, i, -, e⟩ | ⟨-, e⟩ | ⟨-, -, e⟩ <;> cases e
    · exact .inr ⟨rfl, .inl rfl⟩
    · exact .inr ⟨rfl, .inl rfl⟩
    · exact .inl ⟨_, _, by simp, by simp, rfl⟩
  case jne a =>
    rcases execJne_cases h with ⟨-, i, -, e⟩ | ⟨-, e⟩ | ⟨-, -, e⟩ <;> cases e
    · exact .inr ⟨rfl, .inl rfl⟩
    · exact .inr ⟨rfl, .inl rfl⟩
    · exact .inl ⟨_, _, by simp, by simp, rfl⟩

end Sys2Proof.Machine
end

