-- ==== Sys2Proof/Laws/Host.lean ====
section
/-! SUPPORT. The host port: what each operation answers when the engine is stopped, and what the loader does with one byte. -/

namespace Sys2Proof.Machine

theorem running_eq (s : State) : s.running = decide (s.status = .running) := rfl

/-- A guarded operation is refused with no effect while Running, and is itself in any other status (R41). -/
theorem whileNotRunning_cases (s : State) (r : HostReply × State) :
    (s.status = .running ∧ whileNotRunning s r = (.refused, s)) ∨ (s.status ≠ .running ∧ whileNotRunning s r = r) := by
  by_cases h : s.status = .running <;> simp [whileNotRunning, running_eq, h]

theorem whileNotRunning_stopped {s : State} (h : s.status ≠ .running) (r : HostReply × State) : whileNotRunning s r = r := by
  simp [whileNotRunning, running_eq, h]

theorem hostWrite_in {addr : Nat} (h : addr ≤ 255) (v : Byte) (s : State) :
    hostWrite addr v s = (.done, { s with mem := Memory.write s.mem addr v }) := if_pos h

theorem hostWrite_out {addr : Nat} (h : 255 < addr) (v : Byte) (s : State) : hostWrite addr v s = (.outOfRange addr, s) :=
  if_neg (by omega)

/-- The loader's write of one byte to an address of memory, the engine stopped. -/
theorem loadByteAt_in {s : State} (hs : s.status ≠ .running) {addr : Nat} (h : addr ≤ 255) (v : Byte)
    (k : State → Option LoadError × State) :
    loadByteAt addr v s k = k { s with mem := Memory.write s.mem addr v } := by
  simp only [loadByteAt, hostOp, whileNotRunning_stopped hs, hostWrite_in h]

/-- The loader's write of a byte past the end of memory aborts (R248). -/
theorem loadByteAt_out {s : State} (hs : s.status ≠ .running) {addr : Nat} (h : 255 < addr) (v : Byte)
    (k : State → Option LoadError × State) : loadByteAt addr v s k = (some (.outOfRange addr), s) := by
  simp only [loadByteAt, hostOp, whileNotRunning_stopped hs, hostWrite_out h]

end Sys2Proof.Machine
end

