-- ==== Sys2Proof/Laws/PerInstr.lean ====
section
/-! SUPPORT. Statements made per instruction, one lemma per constructor of `Instr`. The family `EncodedShape`: the encoder puts
the byte of the instruction's own opcode first and as many operand bytes after it as its format has (R70, R71). -/

namespace Sys2Proof.Laws.EncodedShape

/-- The encoding of an instruction is its opcode's byte and then its operand bytes, as many as its format has. -/
def Statement (i : Instr) : Prop :=
  ∀ m : OpcodeMap, ∃ operands : List Byte,
    encode m i = m.byte i.opcode :: operands ∧ operands.length = i.opcode.operandCount

theorem ldi (a b : Byte) : Statement (.ldi a b) := fun _ => ⟨[a, b], rfl, rfl⟩
theorem prn (a : Byte) : Statement (.prn a) := fun _ => ⟨[a], rfl, rfl⟩
theorem hlt : Statement .hlt := fun _ => ⟨[], rfl, rfl⟩
theorem mul (a b : Byte) : Statement (.mul a b) := fun _ => ⟨[a, b], rfl, rfl⟩
theorem add (a b : Byte) : Statement (.add a b) := fun _ => ⟨[a, b], rfl, rfl⟩
theorem cmp (a b : Byte) : Statement (.cmp a b) := fun _ => ⟨[a, b], rfl, rfl⟩
theorem push (a : Byte) : Statement (.push a) := fun _ => ⟨[a], rfl, rfl⟩
theorem pop (a : Byte) : Statement (.pop a) := fun _ => ⟨[a], rfl, rfl⟩
theorem call (a : Byte) : Statement (.call a) := fun _ => ⟨[a], rfl, rfl⟩
theorem ret : Statement .ret := fun _ => ⟨[], rfl, rfl⟩
theorem jmp (a : Byte) : Statement (.jmp a) := fun _ => ⟨[a], rfl, rfl⟩
theorem jeq (a : Byte) : Statement (.jeq a) := fun _ => ⟨[a], rfl, rfl⟩
theorem jne (a : Byte) : Statement (.jne a) := fun _ => ⟨[a], rfl, rfl⟩

end Sys2Proof.Laws.EncodedShape
end

