-- ==== Sys2Proof/Laws/Step.lean ====
section
/-! SUPPORT. The inversion of one step: a step that answers a next state began Running, and its bytes were fetched as the cycle
of R100 says. -/

namespace Sys2Proof.Machine

/-- While Running, a step is the engine's step; else there is none (R100). -/
theorem stepWith_running {c : LegalConfig} {s : State} (h : s.status = .running) : stepWith c s = engineStep c s := by
  simp [stepWith, cycle, h]

theorem stepWith_notRunning {c : LegalConfig} {s : State} (h : s.status ≠ .running) :
    stepWith c s = .fault (.notRunning s.status) := by
  unfold stepWith cycle
  cases e : s.status <;> simp_all

theorem running_of_next {c : LegalConfig} {s t : State} (h : stepWith c s = .next t) : s.status = .running := by
  by_cases hs : s.status = .running
  · exact hs
  · rw [stepWith_notRunning hs] at h
    cases h

/-- What the bytes after an opcode at pc give: the instruction they complete, or an operand fetch out of range (R105). -/
theorem fetchOperandsAndRun_cases {s : State} {op : Opcode} {r : Result} (hpc : s.pc.toNat ≤ 255)
    (h : fetchOperandsAndRun s op.form = r) :
    (∃ i rest, i.opcode = op ∧ s.pc.toNat + op.operandCount ≤ 255 ∧ r = exec i s ∧
      completeForm op.form (Memory.read s.mem (s.pc.toNat + 1) :: Memory.read s.mem (s.pc.toNat + 2) :: rest) =
        .ok (i, (Memory.read s.mem (s.pc.toNat + 1) :: Memory.read s.mem (s.pc.toNat + 2) :: rest).drop op.operandCount)) ∨
    (1 ≤ op.operandCount ∧ 255 < s.pc.toNat + 1 ∧ r = raise s .fetchOperand (s.pc.toNat + 1 : Nat)) ∨
    (op.operandCount = 2 ∧ s.pc.toNat + 1 ≤ 255 ∧ 255 < s.pc.toNat + 2 ∧
      r = raise s .fetchOperand (s.pc.toNat + 2 : Nat)) := by
  by_cases h1 : s.pc.toNat + 1 ≤ 255 <;> by_cases h2 : s.pc.toNat + 2 ≤ 255 <;> subst h <;> cases op <;>
    simp [fetchOperandsAndRun, Opcode.form, readChecked, h1, h2, Opcode.operandCount, completeForm, Instr.opcode, hpc] <;>
    omega

/-- The three ways a Running step can go: an opcode fetch out of range, an unknown byte, a known opcode (R100). -/
theorem engineStep_cases {c : LegalConfig} {s : State} {r : Result} (h : engineStep c s = r) :
    (255 < s.pc.toNat ∧ r = raise s .fetchOpcode s.pc.toNat) ∨
    (s.pc.toNat ≤ 255 ∧ opcodeOf? c.val.opcodes (Memory.read s.mem s.pc.toNat) = none ∧
      r = runUnknown c.val.policy (Memory.read s.mem s.pc.toNat) s) ∨
    (∃ op, s.pc.toNat ≤ 255 ∧ opcodeOf? c.val.opcodes (Memory.read s.mem s.pc.toNat) = some op ∧
      r = fetchOperandsAndRun s op.form) := by
  obtain ⟨hp, hr⟩ | ⟨hp, hr⟩ := readChecked_cases h
  · cases e : opcodeOf? c.val.opcodes (Memory.read s.mem s.pc.toNat) with
    | none => exact .inr (.inl ⟨hp, rfl, by simpa [e] using hr.symm⟩)
    | some op => exact .inr (.inr ⟨op, hp, rfl, by simpa [e] using hr.symm⟩)
  · exact .inl ⟨hp, hr⟩

/-- Everything a step that answers a next state can have been: an opcode fetch out of range, an unknown byte under either policy,
an operand fetch out of range (at 255, or at 254 with two operands), or a known opcode whose operands were fetched and whose
instruction ran. -/
theorem stepWith_next_cases {c : LegalConfig} {s t : State} (h : stepWith c s = .next t) :
    s.status = .running ∧
    ((255 < s.pc.toNat ∧ t = s.enterFaulted .fetchOpcode s.pc.toNat) ∨
     (s.pc.toNat ≤ 255 ∧ (∀ op : Opcode, c.val.opcodes.byte op ≠ Memory.read s.mem s.pc.toNat) ∧ c.val.policy = .fault ∧
        t = s.enterFaulted .decode (Memory.read s.mem s.pc.toNat).toNat) ∨
     (s.pc.toNat ≤ 255 ∧ (∀ op : Opcode, c.val.opcodes.byte op ≠ Memory.read s.mem s.pc.toNat) ∧ c.val.policy = .skip ∧
        t = if cField (Memory.read s.mem s.pc.toNat) then s else s.advancePc (1 + aaField (Memory.read s.mem s.pc.toNat))) ∨
     (s.pc.toNat = 255 ∧ t = s.enterFaulted .fetchOperand 256) ∨
     (s.pc.toNat = 254 ∧ t = s.enterFaulted .fetchOperand 256) ∨
     (∃ i rest, c.val.opcodes.byte i.opcode = Memory.read s.mem s.pc.toNat ∧ s.pc.toNat + i.opcode.operandCount ≤ 255 ∧
        completeForm i.opcode.form (Memory.read s.mem (s.pc.toNat + 1) :: Memory.read s.mem (s.pc.toNat + 2) :: rest) =
          .ok (i, (Memory.read s.mem (s.pc.toNat + 1) :: Memory.read s.mem (s.pc.toNat + 2) :: rest).drop
            i.opcode.operandCount) ∧
        exec i s = .next t)) := by
  have hr := running_of_next h
  refine ⟨hr, ?_⟩
  rw [stepWith_running hr] at h
  rcases engineStep_cases h with ⟨hp, he⟩ | ⟨hp, hn, he⟩ | ⟨op, hp, ho, he⟩
  · rw [raise_eq] at he; cases he; exact .inl ⟨hp, rfl⟩
  · cases hc : c.val.policy with
    | fault => rw [hc] at he; simp only [runUnknown, raise_eq] at he; cases he; exact .inr (.inl ⟨hp, opcodeOf?_none hn, rfl, rfl⟩)
    | skip => rw [hc] at he; simp only [runUnknown] at he; cases he; exact .inr (.inr (.inl ⟨hp, opcodeOf?_none hn, rfl, rfl⟩))
  · have hb := opcodeOf?_some ho
    rcases fetchOperandsAndRun_cases hp he.symm with ⟨i, rest, hi, hle, hx, hcf⟩ | ⟨h1, h2, hx⟩ | ⟨h1, h2, h3, hx⟩
    · subst hi
      exact .inr (.inr (.inr (.inr (.inr ⟨i, rest, hb, hle, hcf, hx.symm⟩))))
    · rw [raise_eq] at hx; cases hx
      exact .inr (.inr (.inr (.inl ⟨by omega, by rw [show s.pc.toNat + 1 = 256 by omega]; rfl⟩)))
    · rw [raise_eq] at hx; cases hx
      exact .inr (.inr (.inr (.inr (.inl ⟨by omega, by rw [show s.pc.toNat + 2 = 256 by omega]; rfl⟩))))

end Sys2Proof.Machine
end

