-- ==== Sys2Proof/Machine/Assembler.lean ====
section
/-! DEFINITION. The assembly notation of spec/30_encoding.md R82: from a line of text to an instruction, and to its bytes by the
encoder. There are no labels, directives or pseudo-instructions (R83). What R82 leaves open is in notes/assumptions/15.md. -/

namespace Sys2Proof.Machine

/-- The mnemonic as R82 writes it, in capitals (R76). -/
def Opcode.text : Opcode → List Char
  | .ldi  => ['L', 'D', 'I']
  | .prn  => ['P', 'R', 'N']
  | .hlt  => ['H', 'L', 'T']
  | .mul  => ['M', 'U', 'L']
  | .add  => ['A', 'D', 'D']
  | .cmp  => ['C', 'M', 'P']
  | .push => ['P', 'U', 'S', 'H']
  | .pop  => ['P', 'O', 'P']
  | .call => ['C', 'A', 'L', 'L']
  | .ret  => ['R', 'E', 'T']
  | .jmp  => ['J', 'M', 'P']
  | .jeq  => ['J', 'E', 'Q']
  | .jne  => ['J', 'N', 'E']

/-- The value of a digit in a base up to 16; letters of either case. -/
def digitValue? (base : Nat) (c : Char) : Option Nat :=
  let n := c.toNat
  let d :=
    if 48 ≤ n ∧ n ≤ 57 then n - 48
    else if 65 ≤ n ∧ n ≤ 70 then n - 55
    else if 97 ≤ n ∧ n ≤ 102 then n - 87
    else 16
  if d < base then some d else none

/-- The value of a string of digits read from the left, on top of `acc`. -/
def digitsValue? (base : Nat) : Nat → List Char → Option Nat
  | acc, [] => some acc
  | acc, c :: cs =>
    match digitValue? base c with
    | some d => digitsValue? base (base * acc + d) cs
    | none   => none

/-- A number that fits a byte (R78, R82). -/
def asByte? : Option Nat → Option Byte
  | some n => if n ≤ 255 then some (BitVec.ofNat 8 n) else none
  | none   => none

/-- A register operand: R0 to R7, or SP for R7 (R82). -/
def asmRegister? : List Char → Option Byte
  | ['S', 'P'] => some 7
  | ['R', c] =>
    match digitValue? 8 c with
    | some d => some (BitVec.ofNat 8 d)
    | none   => none
  | _ => none

/-- An immediate operand: a decimal number 0 to 255, or 0x followed by hex digits (R82). -/
def asmImmediate? : List Char → Option Byte
  | [] => none
  | ['0', 'x'] => none
  | '0' :: 'x' :: ds => asByte? (digitsValue? 16 0 ds)
  | ds => asByte? (digitsValue? 10 0 ds)

/-- The text between the commas. -/
def splitCommas : List Char → List (List Char)
  | [] => [[]]
  | c :: cs =>
    match splitCommas cs with
    | [] => [[c]]
    | w :: ws => if c = ',' then [] :: w :: ws else (c :: w) :: ws

/-- The operands of a line, without the white space around each (R82). -/
def asmOperands (rest : List Char) : List (List Char) :=
  match trim rest with
  | [] => []
  | r  => (splitCommas r).map trim

/-- A row with one register operand. -/
def asmOneRegister (mk : Byte → Instr) : List (List Char) → Option Instr
  | [x] => (asmRegister? x).map mk
  | _   => none

/-- A row with two register operands. -/
def asmTwoRegisters (mk : Byte → Byte → Instr) : List (List Char) → Option Instr
  | [x, y] =>
    match asmRegister? x, asmRegister? y with
    | some a, some b => some (mk a b)
    | _, _ => none
  | _ => none

/-- A row with a register and an immediate operand. -/
def asmRegisterImmediate (mk : Byte → Byte → Instr) : List (List Char) → Option Instr
  | [x, y] =>
    match asmRegister? x, asmImmediate? y with
    | some a, some b => some (mk a b)
    | _, _ => none
  | _ => none

/-- A row without operands. -/
def asmNoOperand (i : Instr) : List (List Char) → Option Instr
  | [] => some i
  | _  => none

/-- The instruction of a mnemonic and its operands (R77, R82). -/
def asmInstr? : Opcode → List (List Char) → Option Instr
  | .ldi  => asmRegisterImmediate .ldi
  | .prn  => asmOneRegister .prn
  | .hlt  => asmNoOperand .hlt
  | .mul  => asmTwoRegisters .mul
  | .add  => asmTwoRegisters .add
  | .cmp  => asmTwoRegisters .cmp
  | .push => asmOneRegister .push
  | .pop  => asmOneRegister .pop
  | .call => asmOneRegister .call
  | .ret  => asmNoOperand .ret
  | .jmp  => asmOneRegister .jmp
  | .jeq  => asmOneRegister .jeq
  | .jne  => asmOneRegister .jne

/-- What a line of assembly text holds. -/
inductive AsmLine where
  /-- Nothing but white space and a comment. -/
  | blank
  | instr (i : Instr)
  /-- The first word is none of the thirteen mnemonics. -/
  | unknownMnemonic
  /-- The operands are not those of the mnemonic. -/
  | badOperands
  deriving DecidableEq, Repr

/-- Read a line: `;` or `#` starts a comment, the first word is the mnemonic, the operands are separated by commas (R82). -/
def readAsmLine (line : List Char) : AsmLine :=
  match trim (line.takeWhile (fun c => c ≠ ';' && c ≠ '#')) with
  | [] => .blank
  | text =>
    match Opcode.all.find? (fun op => Opcode.text op == text.takeWhile (fun c => !c.isWhitespace)) with
    | none => .unknownMnemonic
    | some op =>
      match asmInstr? op (asmOperands (text.dropWhile (fun c => !c.isWhitespace))) with
      | some i => .instr i
      | none   => .badOperands

/-- The bytes of an assembly program (R82), or the number of the first line that is no line of the notation, counted from
`n`. -/
def assemble (m : OpcodeMap) (n : Nat) : List (List Char) → Except Nat (List Byte)
  | [] => .ok []
  | l :: ls =>
    match readAsmLine l with
    | .blank => assemble m (n + 1) ls
    | .instr i =>
      match assemble m (n + 1) ls with
      | .ok bs   => .ok (encode m i ++ bs)
      | .error k => .error k
    | .unknownMnemonic => .error n
    | .badOperands => .error n

end Sys2Proof.Machine
end

