-- ==== Sys2Proof/Tests/Slice0.lean ====
section
/-! SUPPORT. The model's own tests, each on a small state and at most one step. Expected results come from the spec: the vectors
V<n> and examples of spec/95_test_vectors.md and the rules named. Then, for every statement with hypotheses, a witness that
meets them. -/

namespace Sys2Proof.Tests

open Sys2Proof Sys2Proof.Machine

/-! ### Helpers -/

/-- The reset state with the engine started, `bytes` at `pc`, the registers given and FL. -/
def started (pc : Nat) (bytes : List Byte) (regs : List (RegIx × Byte)) (fl : Byte) : State :=
  let s := regs.foldl (fun s r => s.setReg r.1 r.2) State.reset
  { s with status := .running, pc := BitVec.ofNat 9 pc, fl := fl, mem := placeBytes pc bytes [] }

/-- The state with one more byte of memory. -/
def withByte (addr : Nat) (v : Byte) (s : State) : State := { s with mem := Memory.write s.mem addr v }

/-- What is seen of the state after one step under the default configuration. -/
def after (s : State) (f : State → Bool) : Bool :=
  match step s with
  | .next t => f t
  | _ => false

/-- One step ends in Faulted with this operation, value and fault_pc, and pc unchanged. -/
def faultsWith (s : State) (op : FaultOp) (value : Int) : Bool :=
  after s fun t => t.status == .faulted && t.fault == ⟨op.kind, op, value, s.pc⟩ && t.pc == s.pc

/-- The default map under policy skip. -/
def skipConfig : LegalConfig := ⟨⟨OpcodeMap.ls8, .skip⟩, by decide⟩

/-- What is seen of the state after one step under policy skip. -/
def afterSkip (s : State) (f : State → Bool) : Bool :=
  match stepWith skipConfig s with
  | .next t => f t
  | _ => false

/-! ### WellFormed: an ill-formed term for each check -/

theorem test_illFormed_ldi : Instr.wellFormed (.ldi 8 0) = false := by decide
theorem test_illFormed_prn : Instr.wellFormed (.prn 9) = false := by decide
theorem test_illFormed_mul : Instr.wellFormed (.mul 255 0) = false ∧ Instr.wellFormed (.mul 0 8) = false := by decide
theorem test_illFormed_add : Instr.wellFormed (.add 8 0) = false ∧ Instr.wellFormed (.add 0 9) = false := by decide
theorem test_illFormed_cmp : Instr.wellFormed (.cmp 8 9) = false ∧ Instr.wellFormed (.cmp 7 8) = false := by decide
theorem test_illFormed_push : Instr.wellFormed (.push 9) = false := by decide
theorem test_illFormed_pop : Instr.wellFormed (.pop 8) = false := by decide
theorem test_illFormed_call : Instr.wellFormed (.call 9) = false := by decide
theorem test_illFormed_jumps : [Instr.jmp 8, .jeq 9, .jne 128].all (fun i => !i.wellFormed) = true := by decide
theorem test_wellFormed : [Instr.ldi 7 255, .prn 0, .hlt, .mul 7 7, .add 0 7, .cmp 1 2, .push 7, .pop 0, .call 3, .ret, .jmp 7,
    .jeq 0, .jne 7].all (fun i => i.wellFormed) = true := by decide

/-- A map whose LDI byte has operand count 1 breaks R79. -/
theorem test_illegalMap_operandCount : acceptConfig ⟨{ OpcodeMap.ls8 with ldi := 0b01000010 }, .fault⟩ = none := by decide
/-- A map whose JMP byte has bit 4 clear breaks R79. -/
theorem test_illegalMap_pcSetting : acceptConfig ⟨{ OpcodeMap.ls8 with jmp := 0b01000100 }, .fault⟩ = none := by decide
/-- A map that gives MUL and ADD one byte breaks R79. -/
theorem test_illegalMap_distinct : acceptConfig ⟨{ OpcodeMap.ls8 with mul := 0b10100000 }, .fault⟩ = none := by decide

/-! ### Decoding: each word written out from the table's encoding, first byte in bits 7:0 -/

theorem test_decode_ldi : decodeTableWord 24 0b11111111_00000011_10000010 = some (.ldi 3 255) := by decide
theorem test_decode_prn : decodeTableWord 16 0b00000101_01000111 = some (.prn 5) := by decide
theorem test_decode_hlt : decodeTableWord 8 0b00000001 = some .hlt := by decide
theorem test_decode_mul : decodeTableWord 24 0b00000110_00000100_10100010 = some (.mul 4 6) := by decide
theorem test_decode_add : decodeTableWord 24 0b00000000_00000111_10100000 = some (.add 7 0) := by decide
theorem test_decode_cmp : decodeTableWord 24 0b00000010_00000001_10100111 = some (.cmp 1 2) := by decide
theorem test_decode_push : decodeTableWord 16 0b00000111_01000101 = some (.push 7) := by decide
theorem test_decode_pop : decodeTableWord 16 0b00000001_01000110 = some (.pop 1) := by decide
theorem test_decode_call : decodeTableWord 16 0b00000010_01010000 = some (.call 2) := by decide
theorem test_decode_ret : decodeTableWord 8 0b00010001 = some .ret := by decide
theorem test_decode_jmp : decodeTableWord 16 0b00000011_01010100 = some (.jmp 3) := by decide
theorem test_decode_jeq : decodeTableWord 16 0b00001001_01010101 = some (.jeq 9) := by decide
theorem test_decode_jne : decodeTableWord 16 0b10000000_01010110 = some (.jne 128) := by decide
/-- Bytes that are no opcode: the reset byte, a neighbour of LDI, AA = 3 (R75, R80). -/
theorem test_decode_unknown : [0x00, 0x83, 0xC0, 0x10].all (fun w => decodeTableWord 24 w == none) = true := by decide
/-- A list that ends too early names the operand that is missing. -/
theorem test_decode_missing : decode OpcodeMap.ls8 [0x82, 0x00] = .error (.missingOperand 1) := rfl
/-- R82's examples: `LDI R0, 8` is 82 00 08, `MUL R0, R1` is A2 00 01, `HLT` is 01. -/
theorem test_encode_examples : encode OpcodeMap.ls8 (.ldi 0 8) = [0x82, 0x00, 0x08] ∧
    encode OpcodeMap.ls8 (.mul 0 1) = [0xA2, 0x00, 0x01] ∧ encode OpcodeMap.ls8 .hlt = [0x01] := by decide
/-- A table word is fetched and run as the first instruction after reset. -/
theorem test_withFetchWord : after (State.reset.withFetchWord 24 0x080082) (fun t => t.reg 0 == 8 && t.pc == 3) = true := by decide

/-! ### Instructions -/

/-- V22 and the rule's example. -/
theorem test_ldi : after (started 0 [0x82, 0x07, 0x10] [] 0) (fun t => t.sp == 0x10 && t.pc == 3) = true := by decide
/-- V23. -/
theorem test_ldi_fault : faultsWith (started 0 [0x82, 0x08, 0x01] [] 0) .registerWrite 8 = true := by decide
/-- V25. -/
theorem test_prn : after (started 9 [0x47, 0x07] [] 0) (fun t => t.out == [244] && t.pc == 11) = true := by decide
/-- V26. -/
theorem test_prn_fault : faultsWith (started 0 [0x47, 0x09] [] 0) .registerRead 9 = true := by decide
/-- V27. -/
theorem test_hlt : after (started 255 [0x01] [] 0) (fun t => t.status == .halted && t.pc == 256) = true := by decide
/-- After HLT the engine has no step (R100). -/
theorem test_hlt_stops : (match step { State.reset with status := .halted } with | .fault (.notRunning .halted) => true | _ => false)
    = true := by decide
/-- V48. -/
theorem test_mul : after (started 0 [0xA2, 0x00, 0x00] [(0, 255)] 4) (fun t => t.reg 0 == 1 && t.fl == 4) = true := by decide
/-- V51. -/
theorem test_mul_two : after (started 0 [0xA2, 0x00, 0x01] [(0, 3), (1, 86)] 0) (fun t => t.reg 0 == 2 && t.reg 1 == 86) = true := by
  decide
/-- V40. -/
theorem test_add : after (started 0 [0xA0, 0x00, 0x01] [(0, 250), (1, 10)] 2) (fun t => t.reg 0 == 4 && t.reg 1 == 10 && t.fl == 2)
    = true := by decide
/-- V45. -/
theorem test_add_sp : after (started 0 [0xA0, 0x07, 0x00] [(0, 0x10)] 0) (fun t => t.sp == 0x04 && t.status == .running) = true := by
  decide
/-- V55. -/
theorem test_cmp : after (started 0 [0xA7, 0x00, 0x01] [(0, 0x80), (1, 0x7F)] 4) (fun t => t.fl == 0x02) = true := by decide
/-- V60. -/
theorem test_cmp_fault : faultsWith (started 0 [0xA7, 0x08, 0x09] [] 0) .registerRead 8 = true := by decide
/-- V71. -/
theorem test_push_sp : after (started 0 [0x45, 0x07] [] 0) (fun t => t.sp == 0xF3 && t.loadByte 0xF3 == 0xF3) = true := by decide
/-- V74. -/
theorem test_push_priority : faultsWith (started 0 [0x45, 0x09] [(7, 0)] 0) .registerRead 9 = true := by decide
/-- V77. -/
theorem test_pop_sp : after (withByte 0xF0 0x20 (started 0 [0x46, 0x07] [(7, 0xF0)] 0)) (fun t => t.sp == 0x21) = true := by decide
/-- V79. -/
theorem test_pop_fault : faultsWith (withByte 0xF0 0xFF (started 0 [0x46, 0x07] [(7, 0xF0)] 0)) .stackAdjust 256 = true := by decide
/-- V91. -/
theorem test_call_sp : after (started 0x10 [0x50, 0x07] [] 0) (fun t => t.sp == 0xF3 && t.loadByte 0xF3 == 0x12 && t.pc == 0xF3)
    = true := by decide
/-- V92. -/
theorem test_call_returnAddress : faultsWith (started 254 [0x50, 0x00] [] 0) .returnAddress 256 = true := by decide
/-- V95. -/
theorem test_ret : after (withByte 0xF3 11 (started 0 [0x11] [(7, 0xF3)] 0)) (fun t => t.pc == 11 && t.sp == 0xF4) = true := by decide
/-- V96. -/
theorem test_ret_fault : faultsWith (started 0 [0x11] [(7, 0xFF)] 0) .stackAdjust 256 = true := by decide
/-- V98. -/
theorem test_jmp : after (started 0 [0x54, 0x03] [(3, 12)] 0) (fun t => t.pc == 12) = true := by decide
/-- V99. -/
theorem test_jmp_fault : faultsWith (started 0 [0x54, 0x09] [] 0) .registerRead 9 = true := by decide
/-- V100. -/
theorem test_jeq_taken : after (started 18 [0x55, 0x03] [(3, 23)] 0x01) (fun t => t.pc == 23) = true := by decide
/-- V104. -/
theorem test_jeq_notTaken : after (started 18 [0x55, 0x09] [] 0x00) (fun t => t.pc == 20 && t.status == .running) = true := by decide
/-- V109. -/
theorem test_jne_taken : after (started 20 [0x56, 0x03] [(3, 12)] 0x04) (fun t => t.pc == 12) = true := by decide
/-- V107. -/
theorem test_jne_notTaken : after (started 20 [0x56, 0x03] [(3, 12)] 0x01) (fun t => t.pc == 22) = true := by decide

/-! ### The cycle -/

/-- V2. -/
theorem test_fetch_opcode : faultsWith (started 256 [] [] 0) .fetchOpcode 256 = true := by decide
/-- V4. -/
theorem test_fetch_operand : faultsWith (started 254 [0x82, 0x00] [] 0) .fetchOperand 256 = true := by decide
/-- V11: decode before operand fetch. -/
theorem test_unknown_fault : faultsWith (started 255 [0x83] [] 0) .decode 0x83 = true := by decide
/-- V8. -/
theorem test_unknown_skip : afterSkip (started 5 [0xC0] [] 0) (fun t => t.pc == 9 && t.status == .running) = true := by decide
/-- V9: the hang. -/
theorem test_unknown_hang : afterSkip (started 5 [0x10] [] 0) (fun t => decide (t = started 5 [0x10] [] 0)) = true := by decide

/-! ### The host -/

/-- V120, V121. -/
theorem test_host_range : hostOp (.read 300) State.reset = (.outOfRange 300, State.reset) ∧
    hostOp (.write 256 1) State.reset = (.outOfRange 256, State.reset) := by decide
/-- V122. -/
theorem test_host_write : (hostOp (.read 255) (hostOp (.write 255 7) State.reset).2).1 = .byte 7 := by decide
/-- V123. -/
theorem test_host_getReg : (hostOp (.getReg 8) State.reset).1 = .outOfRange 8 := by decide
/-- V124. -/
theorem test_host_running : hostOp (.write 0 1) (started 0 [] [] 0) = (.refused, started 0 [] [] 0) := by decide
/-- V126. -/
theorem test_host_start_halted : (hostOp .start { State.reset with status := .halted }).2.status = .halted := by decide
/-- S9: the line 10000010, with a trailing comment, is the byte 0x82. -/
theorem test_file_line : readFileLine [' ', '1', '0', '0', '0', '0', '0', '1', '0', ' ', '#', ' ', 'x'] = .byte 0x82 := by decide
/-- Comment-only lines are ignored, other significant lines are malformed (R247, R248). -/
theorem test_file_other : readFileLine [' ', '#', '1'] = .blank ∧ readFileLine ['1', '0'] = .malformed ∧
    readFileLine ['1', '0', '2', '0', '0', '0', '0', '0'] = .malformed := by decide
/-- The boot order ends Running with the program in memory (R243). -/
theorem test_boot : (bootBytes [0x47, 0x00] State.reset).2 = { State.reset with status := .running, mem := [(0, 0x47)] } := by decide
/-- A byte is printed in decimal: 72 is the line 72 (R124). -/
theorem test_printed_line : printedLine 72 = ['7', '2'] := by decide
/-- R82: `LDI R0, 8`. -/
theorem test_asm_ldi : readAsmLine ['L', 'D', 'I', ' ', 'R', '0', ',', ' ', '8'] = .instr (.ldi 0 8) := by decide
/-- R82: hexadecimal immediates, SP for R7, comments. -/
theorem test_asm_sp : readAsmLine ['L', 'D', 'I', ' ', 'S', 'P', ',', '0', 'x', '1', 'F', ' ', ';', 'x'] = .instr (.ldi 7 0x1F) := by
  decide
/-- V2's state and its trace: bytes above 255 are absent (R232). -/
theorem test_trace : (started 255 [0x47] [] 0).trace = ⟨255, some 0x47, none, none, State.reset.regs⟩ := by decide

/-! ### Witnesses: states and operands that meet the hypotheses of each statement -/

theorem witness_EncodeOfDecodeIsTheBytes : decode OpcodeMap.ls8 [0x47, 5, 9] = .ok (.prn 5, [9]) := rfl
theorem witness_FirstByteTellsTheLength : decode defaultConfig.val.opcodes (0x82 :: [1, 2, 3]) = .ok (.ldi 1 2, [3]) := rfl
theorem witness_UnknownBytes_unknown : ∀ op ∈ Opcode.all, OpcodeMap.ls8.byte op ≠ 0x00 := by decide
theorem witness_UnknownBytes_threeOperands : aaField 0xC0 = 3 ∧ aaField 0xFF = 3 := by decide
theorem witness_CanonicalMemories : Memory.wf [(0, 1), (255, 7)] = true ∧ (256 : Nat) ≤ 256 := by decide
theorem witness_CmpSetsOneFlag :
    ((started 0 [] [(0, 5), (1, 5)] 0).reg 0).toNat = ((started 0 [] [(0, 5), (1, 5)] 0).reg 1).toNat ∧
    ((started 0 [] [(0, 255)] 0).reg 0).toNat > ((started 0 [] [(0, 255)] 0).reg 1).toNat ∧
    ((started 0 [] [(1, 255)] 0).reg 0).toNat < ((started 0 [] [(1, 255)] 0).reg 1).toNat := by decide
theorem witness_PushStoresBelowTheStackPointer : (started 0 [] [(7, 1)] 0).sp ≠ 0 ∧ (started 0 [] [(7, 255)] 0).sp ≠ 0 := by decide
theorem witness_PopLoads_other :
    (if (0 : RegIx) = 7 then Memory.read (started 0 [] [(7, 254)] 0).mem 254 else (started 0 [] [(7, 254)] 0).sp) ≠ 255 := by decide
theorem witness_PopLoads_sp :
    (if (7 : RegIx) = 7 then Memory.read (withByte 255 254 (started 0 [] [(7, 255)] 0)).mem 255
      else (withByte 255 254 (started 0 [] [(7, 255)] 0)).sp) ≠ 255 := by decide
theorem witness_CallPushesTheReturnAddress :
    (started 253 [] [(7, 1)] 0).sp ≠ 0 ∧ (started 253 [] [(7, 1)] 0).pc.toNat + 2 ≤ 255 := by decide
theorem witness_RetPopsTheReturnAddress : (started 0 [] [(7, 254)] 0).sp ≠ 255 := by decide
theorem witness_JeqJumpsWhenEqualIsSet : flagE (started 0 [] [] 0x01).fl = true ∧ flagE (started 0 [] [] 0x02).fl = false := by decide
theorem witness_JneJumpsWhenEqualIsClear : flagE (started 0 [] [] 0x04).fl = false ∧ flagE (started 0 [] [] 0x01).fl = true := by decide
theorem witness_RegisterIndexAboveSevenFaults_first :
    8 ≤ (8 : Byte).toNat ∧ 8 ≤ (255 : Byte).toNat ∧ flagE (started 0 [] [] 1).fl = true ∧ flagE State.reset.fl = false := by decide
theorem witness_RegisterIndexAboveSevenFaults_second : (7 : Byte).toNat < 8 ∧ 8 ≤ (8 : Byte).toNat := by decide
theorem witness_StackAdjustmentOutOfRangeFaults :
    (started 0 [] [(7, 0)] 0).sp = 0 ∧ (started 0 [] [(7, 255)] 0).sp = 255 ∧
    (if (7 : RegIx) = 7 then Memory.read (withByte 0xF0 255 State.reset).mem 0xF0 else State.reset.sp) = 255 ∧
    (if (0 : RegIx) = 7 then Memory.read State.reset.mem 0 else (started 0 [] [(7, 255)] 0).sp) = 255 := by decide
theorem witness_ReturnAddressAbove255Faults :
    (started 254 [] [(7, 1)] 0).sp ≠ 0 ∧ 255 < (started 254 [] [(7, 1)] 0).pc.toNat + 2 := by decide
theorem witness_OpcodeFetchAbove255Faults : (started 256 [] [] 0).status = .running ∧ 255 < (started 256 [] [] 0).pc.toNat := by decide
/-- One state for each clause at the end of memory: HLT at 255, PRN at 254 and at 255, LDI at 253, 254 and 255. -/
theorem witness_KnownOpcodeFetchesItsOperands :
    [(255, Opcode.hlt), (254, .prn), (255, .prn), (253, .ldi), (254, .ldi), (255, .ldi)].all (fun x =>
      let s := started x.1 [OpcodeMap.ls8.byte x.2] [] 0
      s.status == .running && decide (s.pc.toNat ≤ 255) &&
        Memory.read s.mem s.pc.toNat == defaultConfig.val.opcodes.byte x.2) = true := by decide
theorem witness_UnknownOpcodeFaultsUnderPolicyFault :
    defaultConfig.val.policy = .fault ∧ (started 255 [0x83] [] 0).status = .running ∧ (started 255 [0x83] [] 0).pc.toNat ≤ 255 ∧
    ∀ op ∈ Opcode.all, defaultConfig.val.opcodes.byte op ≠ Memory.read (started 255 [0x83] [] 0).mem 255 := by decide
theorem witness_UnknownOpcodeIsSkippedUnderPolicySkip :
    skipConfig.val.policy = .skip ∧ (started 255 [0xC0] [] 0).status = .running ∧ (started 255 [0xC0] [] 0).pc.toNat ≤ 255 ∧
    cField (Memory.read (started 255 [0xC0] [] 0).mem 255) = false ∧
    ∀ op ∈ Opcode.all, skipConfig.val.opcodes.byte op ≠ Memory.read (started 255 [0xC0] [] 0).mem 255 := by decide
theorem witness_SkippedPcSettingByteHangs :
    skipConfig.val.policy = .skip ∧ (started 5 [0x10] [] 0).status = .running ∧ (started 5 [0x10] [] 0).pc.toNat ≤ 255 ∧
    cField (Memory.read (started 5 [0x10] [] 0).mem 5) = true ∧
    ∀ op ∈ Opcode.all, skipConfig.val.opcodes.byte op ≠ Memory.read (started 5 [0x10] [] 0).mem 5 := by decide
theorem witness_FaultsCommitNothing : ∃ t, stepWith defaultConfig (started 0 [0x45, 0x00] [(7, 0)] 0) = .next t ∧ t.status = .faulted :=
  ⟨_, rfl, rfl⟩
/-- Both branches: a step with a cause and one without. -/
theorem witness_StepReportsTheFirstFaultOrCompletes :
    (started 0 [0x45, 0x09] [(7, 0)] 0).status = .running ∧
    firstFault defaultConfig (started 0 [0x45, 0x09] [(7, 0)] 0) = some (.registerRead, 9) ∧
    (started 0 [0x45, 0x00] [(7, 1)] 0).status = .running ∧
    firstFault defaultConfig (started 0 [0x45, 0x00] [(7, 1)] 0) = none := by decide
theorem witness_NoStepUnlessRunning : State.reset.status ≠ .running := by decide
theorem witness_StepRunsTheDecodedInstruction :
    (started 254 [0x45, 0x07] [] 0).status = .running ∧
    decode defaultConfig.val.opcodes (bytesFromPc (started 254 [0x45, 0x07] [] 0)) = .ok (.push 7, []) := ⟨rfl, rfl⟩
/-- A PRN at 254: it completes, pc is 256 and the engine is still Running. -/
theorem witness_DefaultPcAdvance : ∃ t, stepWith defaultConfig (started 254 [0x47, 0x00] [] 0) = .next t ∧ t.status ≠ .faulted ∧
    cField (Memory.read (started 254 [0x47, 0x00] [] 0).mem 254) = false ∧ 255 < t.pc.toNat ∧ t.status = .running :=
  ⟨_, rfl, by decide, by decide, by decide, rfl⟩
theorem witness_NextPcIsThatOfTheSummary : ∃ t, exec (.call 2) (started 9 [] [(2, 14)] 0) = .next t ∧ t.status ≠ .faulted :=
  ⟨_, rfl, by decide⟩
theorem witness_RunningIsLeftByHltOrFaultOnly : (∃ t, stepWith defaultConfig (started 0 [0x01] [] 0) = .next t ∧ t.status = .halted) ∧
    (∃ t, stepWith defaultConfig (started 0 [0x00] [] 0) = .next t ∧ t.status = .faulted) ∧
    (∃ t, stepWith defaultConfig (started 0 [0x11] [] 0) = .next t ∧ t.status = .running) :=
  ⟨⟨_, rfl, rfl⟩, ⟨_, rfl, rfl⟩, ⟨_, rfl, rfl⟩⟩
theorem witness_Flags_written : ∃ t, exec (.cmp 0 1) State.reset = .next t ∧ t.fl ≠ State.reset.fl := ⟨_, rfl, by decide⟩
theorem witness_Flags_fault : ∃ t, stepWith defaultConfig (started 0 [0xA7, 8, 0] [] 2) = .next t ∧ t.status = .faulted := ⟨_, rfl, rfl⟩
theorem witness_Flags_notRead : (Instr.jeq 0).opcode ≠ .cmp ∧ flagE 0x02 = flagE 0x04 := by decide
theorem witness_Flags_overwritten : ∃ t, exec (.cmp 0 1) State.reset = .next t ∧ t.status ≠ .faulted := ⟨_, rfl, by decide⟩
theorem witness_OutputGrows_prn : ∃ t, stepWith defaultConfig (started 0 [0x47, 0x07] [] 0) = .next t ∧ t.status ≠ .faulted ∧
    Memory.read (started 0 [0x47, 0x07] [] 0).mem 0 = defaultConfig.val.opcodes.byte .prn ∧ t.out = [0xF4] :=
  ⟨_, rfl, by decide, rfl, rfl⟩
/-- A PRN that faults on its index, and a byte that is not PRN's. -/
theorem witness_OutputGrows_other :
    (∃ t, stepWith defaultConfig (started 0 [0x47, 0x08] [] 0) = .next t ∧ t.status = .faulted) ∧
    (∃ t, stepWith defaultConfig (started 0 [0x01] [] 0) = .next t ∧
      Memory.read (started 0 [0x01] [] 0).mem 0 ≠ defaultConfig.val.opcodes.byte .prn) :=
  ⟨⟨_, rfl, rfl⟩, ⟨_, rfl, by decide⟩⟩
theorem witness_MemoryIsWrittenByPushAndCallOnly : ∃ t, exec (.push 7) State.reset = .next t ∧
    Memory.read t.mem 0xF3 ≠ Memory.read State.reset.mem 0xF3 := ⟨_, rfl, by decide⟩
theorem witness_RegistersAreWrittenAsTabled : ∃ t, exec (.ldi 7 1) State.reset = .next t ∧ t.reg 7 ≠ State.reset.reg 7 :=
  ⟨_, rfl, by decide⟩
theorem witness_ProgramCounterIsReadByCallOnly : (Instr.push 0).opcode ≠ .call ∧ ∃ t, exec (.push 0) State.reset = .next t :=
  ⟨by decide, _, rfl⟩
theorem witness_PushThenPopRestores : (started 0 [] [(7, 1)] 0).sp ≠ 0 := by decide
theorem witness_CallThenRetRestores : (started 253 [] [(7, 1)] 0).sp ≠ 0 ∧ (started 253 [] [(7, 1)] 0).pc.toNat ≤ 253 := by decide
/-- PUSH R7 at 0 with SP = 2 writes address 1, its own operand byte. -/
theorem witness_PushOverItsOwnOperand :
    let s := started 0 [0x45, 0x07] [(7, 2)] 0
    s.status = .running ∧ Memory.read s.mem s.pc.toNat = defaultConfig.val.opcodes.byte .push ∧
      Memory.read s.mem (s.pc.toNat + 1) = regByte 7 ∧ s.sp.toNat = s.pc.toNat + 2 := by decide
theorem witness_StepKeepsStatesLegal_default : (started 0 [0x47, 0x07] [] 0).Inv ∧
    ∃ t, stepWith defaultConfig (started 0 [0x47, 0x07] [] 0) = .next t := ⟨⟨rfl, .inl rfl, by decide, rfl⟩, _, rfl⟩
/-- The step that reaches the highest pc: an unknown byte with AA = 3 at 255, under policy skip (R26, R104). -/
theorem witness_StepKeepsStatesLegal_skip : (started 255 [0xC0] [] 0).Inv ∧
    ∃ t, stepWith skipConfig (started 255 [0xC0] [] 0) = .next t ∧ t.pc.toNat = 259 :=
  ⟨⟨rfl, .inl rfl, by decide, rfl⟩, _, rfl, rfl⟩
theorem witness_HostOperationsKeepStatesLegal : State.reset.Inv := ⟨rfl, .inl rfl, by decide, rfl⟩
theorem witness_ReachableStatesAreLegal : Reachable defaultConfig (hostOp .start (hostOp (.write 0 1) State.reset).2).2 :=
  .host .start _ (.host (.write 0 1) _ .reset)
theorem witness_HostPortReadsAndWritesInRange : State.reset.status ≠ .running ∧ 255 ≤ 255 ∧ 255 < 256 ∧ 7 < 8 ∧ 8 ≤ 8 := by decide
theorem witness_HostPortIsRefusedWhileRunning : (started 0 [] [] 0).status = .running ∧ HostOp.start ≠ .getStatus ∧
    HostOp.start ≠ .reset := by decide
theorem witness_OnlyResetLeavesHaltedOrFaulted : State.reset.status = .idle ∧ (started 0 [] [] 0).status ≠ .idle ∧
    ({ State.reset with status := .halted } : State).status = .halted ∧ HostOp.start ≠ .reset := by decide
theorem witness_LoaderPutsTheProgramFromAddressZero : (List.replicate 256 (1 : Byte)).length ≤ 256 := by
  rw [List.length_replicate]
theorem witness_ProgramFileLoadsItsBytes : 256 < (List.replicate 257 (1 : Byte)).length := by
  rw [List.length_replicate]; omega
theorem witness_TracePortIsObservationalOnly : (started 253 [] [] 0).pc.toNat + 2 ≤ 255 ∧ 255 < (started 254 [] [] 0).pc.toNat + 2 ∧
    (started 254 [] [] 0).pc.toNat + 1 ≤ 255 ∧ 255 < (started 255 [] [] 0).pc.toNat + 1 ∧
    (started 255 [] [] 0).pc.toNat ≤ 255 ∧ 255 < (started 256 [] [] 0).pc.toNat := by decide

end Sys2Proof.Tests
end

/-! ### Registers and FL (spec/10_state.md R20, R28) -/

namespace Sys2Proof.Machine

/-- Settles O7: the register written reads as the byte written, every other one as before. -/
theorem everyRegisterHoldsTheLastWrite : Obligations.EveryRegisterHoldsTheLastWrite := by
  intro s i j v
  split
  · next h => rw [h, State.reg_setReg_same]
  · next h => exact State.reg_setReg_other s v h

/-! ### Another value of FL

Each checked access asks nothing of FL, so a change of FL before it is the same change made to its answer, as long as this holds
of what it goes on with. -/

section ChangeOfFl
variable {s : State} {f : Byte}

theorem raise_setFl (op : FaultOp) (v : Int) : raise (s.setFl f) op v = mapNext (fun t => t.setFl f) (raise s op v) := rfl

theorem withRegister_setFl {op : FaultOp} {a : Byte} {k k' : RegIx → Result}
    (hk : ∀ i, k' i = mapNext (fun t => t.setFl f) (k i)) :
    withRegister (s.setFl f) op a k' = mapNext (fun t => t.setFl f) (withRegister s op a k) := by
  rw [withRegister_eq, withRegister_eq]
  split
  · exact hk _
  · exact raise_setFl _ _

theorem decrementSp_setFl {k k' : State → Result} (hk : ∀ w, k' (w.setFl f) = mapNext (fun t => t.setFl f) (k w)) :
    decrementSp (s.setFl f) k' = mapNext (fun t => t.setFl f) (decrementSp s k) := by
  by_cases h : s.sp = 0
  · rw [decrementSp_out h, decrementSp_out (s := s.setFl f) h, raise_setFl]
  · rw [decrementSp_in h, decrementSp_in (s := s.setFl f) h, ← hk]
    rfl

theorem incrementSp_setFl {w : State} {k k' : State → Result}
    (hk : ∀ w, k' (w.setFl f) = mapNext (fun t => t.setFl f) (k w)) :
    incrementSp (s.setFl f) (w.setFl f) k' = mapNext (fun t => t.setFl f) (incrementSp s w k) := by
  by_cases h : w.sp = 255
  · rw [incrementSp_out h, incrementSp_out (w := w.setFl f) h, raise_setFl]
  · rw [incrementSp_in h, incrementSp_in (w := w.setFl f) h, ← hk]
    rfl

theorem withReturnAddress_setFl {k k' : Byte → Result} (hk : ∀ v, k' v = mapNext (fun t => t.setFl f) (k v)) :
    withReturnAddress (s.setFl f) k' = mapNext (fun t => t.setFl f) (withReturnAddress s k) := by
  by_cases h : s.pc.toNat + 2 ≤ 255
  · rw [withReturnAddress_in h, withReturnAddress_in (s := s.setFl f) h, State.setFl_pc, hk]
  · have h' : 255 < s.pc.toNat + 2 := by omega
    rw [withReturnAddress_out h', withReturnAddress_out (s := s.setFl f) h', State.setFl_pc, raise_setFl]

theorem execRet_setFl : execRet (s.setFl f) = mapNext (fun t => t.setFl f) (execRet s) :=
  incrementSp_setFl (w := s) fun _ => rfl

/-- JEQ reads the E bit of FL and nothing else of it. -/
theorem execJeq_setFl {a : Byte} (hE : flagE f = flagE s.fl) :
    execJeq a (s.setFl f) = mapNext (fun t => t.setFl f) (execJeq a s) := by
  cases h : flagE s.fl with
  | true =>
    rw [execJeq_taken h, execJeq_taken (hE.trans h)]
    exact withRegister_setFl fun _ => rfl
  | false =>
    rw [execJeq_notTaken h, execJeq_notTaken (hE.trans h)]
    rfl

/-- JNE reads the E bit of FL and nothing else of it. -/
theorem execJne_setFl {a : Byte} (hE : flagE f = flagE s.fl) :
    execJne a (s.setFl f) = mapNext (fun t => t.setFl f) (execJne a s) := by
  cases h : flagE s.fl with
  | true =>
    rw [execJne_notTaken h, execJne_notTaken (hE.trans h)]
    rfl
  | false =>
    rw [execJne_taken h, execJne_taken (hE.trans h)]
    exact withRegister_setFl fun _ => rfl

/-- An instruction other than CMP hands FL on, and of FL only JEQ and JNE read anything, the E bit. -/
theorem exec_setFl {i : Instr} (hi : i.opcode ≠ .cmp) (hE : i.opcode = .jeq ∨ i.opcode = .jne → flagE f = flagE s.fl) :
    exec i (s.setFl f) = mapNext (fun t => t.setFl f) (exec i s) := by
  cases i with
  | ldi a b => exact withRegister_setFl fun _ => rfl
  | prn a => exact withRegister_setFl fun _ => rfl
  | hlt => rfl
  | mul a b => exact withRegister_setFl fun _ => withRegister_setFl fun _ => rfl
  | add a b => exact withRegister_setFl fun _ => withRegister_setFl fun _ => rfl
  | cmp a b => exact absurd rfl hi
  | push a => exact withRegister_setFl fun _ => decrementSp_setFl fun _ => rfl
  | pop a => exact withRegister_setFl fun _ => incrementSp_setFl (w := s.setReg _ _) fun _ => rfl
  | call a =>
    exact withRegister_setFl fun _ => decrementSp_setFl fun _ => withReturnAddress_setFl fun _ => rfl
  | ret => exact execRet_setFl
  | jmp a => exact withRegister_setFl fun _ => rfl
  | jeq a => exact execJeq_setFl (hE (.inl rfl))
  | jne a => exact execJne_setFl (hE (.inr rfl))

end ChangeOfFl

/-! ### Who writes FL -/

/-- An instruction other than CMP leaves FL: setting FL to its own value before the instruction, which is no change, sets it to
that value after. -/
theorem exec_fl_of_ne_cmp {i : Instr} {s t : State} (hi : i.opcode ≠ .cmp) (h : exec i s = .next t) : t.fl = s.fl := by
  have hset : (.next t : Result) = .next (t.setFl s.fl) := by
    calc (.next t : Result) = exec i (s.setFl s.fl) := h.symm
      _ = mapNext (fun t => t.setFl s.fl) (exec i s) := exec_setFl hi fun _ => rfl
      _ = .next (t.setFl s.fl) := by rw [h]; rfl
  have ht : t = t.setFl s.fl := Host.Outcome.next.inj hset
  rw [ht, State.setFl_fl]

/-- A step that ends in Faulted is fault entry and nothing else (R214, R215). -/
theorem stepWith_faulted {c : LegalConfig} {s t : State} (h : stepWith c s = .next t) (ht : t.status = .faulted) :
    ∃ op v, t = s.enterFaulted op v := by
  obtain ⟨hrun, ⟨-, e⟩ | ⟨-, -, -, e⟩ | ⟨-, -, -, e⟩ | ⟨-, e⟩ | ⟨-, e⟩ | ⟨i, -, -, -, -, hx⟩⟩ := stepWith_next_cases h
  · exact ⟨_, _, e⟩
  · exact ⟨_, _, e⟩
  · have hskip : t.status = .running := by
      rw [e, ← hrun]
      split <;> rfl
    rw [hskip] at ht
    cases ht
  · exact ⟨_, _, e⟩
  · exact ⟨_, _, e⟩
  · obtain ⟨op, v, -, -, e⟩ | ⟨-, e | ⟨-, e⟩⟩ := exec_next_cases hx
    · exact ⟨op, v, e⟩
    · rw [e, hrun] at ht
      cases ht
    · rw [e] at ht
      cases ht

/-- A CMP that completes gives the same state whatever FL was. -/
theorem execCmp_setFl {a b f : Byte} {s t : State} (h : execCmp a b s = .next t) (ht : t.status ≠ .faulted) :
    execCmp a b (s.setFl f) = .next t := by
  obtain ⟨i, j, rfl, rfl, e⟩ | ⟨-, e⟩ | ⟨-, -, e⟩ := execCmp_cases h
  · rw [execCmp_in, e]
    rfl
  · cases e
    exact absurd rfl ht
  · cases e
    exact absurd rfl ht

/-- Settles O41: a change of FL passes through every instruction but CMP, which overwrites it, and fault entry keeps FL. -/
theorem flagsAreWrittenByCmpAndReadByJumpsOnly : Obligations.FlagsAreWrittenByCmpAndReadByJumpsOnly := by
  refine ⟨fun i s t h hfl => ?_, fun c s t h ht => ?_, fun i s f hi hE => exec_setFl hi hE,
    fun a b f s t h ht => execCmp_setFl h ht, rfl⟩
  · by_contra hi
    exact hfl (exec_fl_of_ne_cmp hi h)
  · obtain ⟨op, v, e⟩ := stepWith_faulted h ht
    rw [e, State.enterFaulted_fl]

end Sys2Proof.Machine

/-! ### Which maps are accepted (spec/30_encoding.md R79) -/

namespace Sys2Proof

theorem Opcode.nodup_all : Opcode.all.Nodup := by decide

/-- The PC-setting rows of the dispatch table (R72, R76). -/
theorem Opcode.setsPc_iff (op : Opcode) :
    op.setsPc = true ↔ op = .call ∨ op = .ret ∨ op = .jmp ∨ op = .jeq ∨ op = .jne := by
  cases op <;> decide

/-- The check of R79 as a statement about every opcode. -/
theorem OpcodeMap.legal_iff {m : OpcodeMap} :
    m.legal = true ↔ (∀ op, aaField (m.byte op) = op.operandCount ∧ cField (m.byte op) = op.setsPc) ∧
      Function.Injective m.byte := by
  constructor
  · intro h
    exact ⟨fun op => ⟨aaField_byte h op, cField_byte h op⟩, fun _ _ => byte_injective h⟩
  · rintro ⟨hfields, hinj⟩
    have hnodup : (Opcode.all.map m.byte).Nodup := Opcode.nodup_all.map hinj
    simp [OpcodeMap.legal, hfields, hnodup]

/-- A configuration is accepted as it stands exactly when its map is legal. -/
theorem acceptConfig_some_iff {c : Config} : (∃ l, acceptConfig c = some l ∧ l.val = c) ↔ c.opcodes.legal = true := by
  constructor
  · rintro ⟨l, -, rfl⟩
    exact l.property
  · intro h
    exact ⟨⟨c, h⟩, dif_pos h, rfl⟩

/-- A configuration is refused exactly when its map is not legal. -/
theorem acceptConfig_none_iff {c : Config} : acceptConfig c = none ↔ ¬ c.opcodes.legal = true := by
  simp [acceptConfig]

/-- Settles O5: acceptance is legality, and legality is the rule, with the table's columns read off row by row. -/
theorem acceptedMapsAreThoseOfTheRule : Obligations.AcceptedMapsAreThoseOfTheRule := by
  intro c
  refine ⟨?_, acceptConfig_none_iff.trans (not_congr acceptConfig_some_iff.symm)⟩
  refine (acceptConfig_some_iff.trans OpcodeMap.legal_iff).trans
    (and_congr (forall_congr' fun op => and_congr Iff.rfl ?_) Iff.rfl)
  rw [← Opcode.setsPc_iff, Bool.eq_iff_iff]

/-! ### The length of an instruction (spec/30_encoding.md R71, R74) -/

theorem Opcode.operandCount_le_two (op : Opcode) : op.operandCount ≤ 2 := by cases op <;> decide

/-- Every instruction's encoding is its opcode's byte and as many operand bytes as its format has (R70, R71). -/
theorem encodedShape (i : Instr) : Laws.EncodedShape.Statement i := by
  cases i with
  | ldi a b => exact Laws.EncodedShape.ldi a b
  | prn a => exact Laws.EncodedShape.prn a
  | hlt => exact Laws.EncodedShape.hlt
  | mul a b => exact Laws.EncodedShape.mul a b
  | add a b => exact Laws.EncodedShape.add a b
  | cmp a b => exact Laws.EncodedShape.cmp a b
  | push a => exact Laws.EncodedShape.push a
  | pop a => exact Laws.EncodedShape.pop a
  | call a => exact Laws.EncodedShape.call a
  | ret => exact Laws.EncodedShape.ret
  | jmp a => exact Laws.EncodedShape.jmp a
  | jeq a => exact Laws.EncodedShape.jeq a
  | jne a => exact Laws.EncodedShape.jne a

theorem length_encode (m : OpcodeMap) (i : Instr) : (encode m i).length = 1 + i.opcode.operandCount := by
  obtain ⟨operands, he, hlen⟩ := encodedShape i m
  rw [he, List.length_cons, hlen, Nat.add_comm]

/-- A completed row is an instruction of that row, and its operands are the bytes taken from the front. -/
theorem completeForm_form_ok {op : Opcode} {bytes : List Byte} {i : Instr} {rest : List Byte}
    (h : completeForm op.form bytes = .ok (i, rest)) :
    i.opcode = op ∧ op.operandCount ≤ bytes.length ∧ rest = bytes.drop op.operandCount := by
  cases op with
  | hlt | ret =>
    cases h
    exact ⟨rfl, Nat.zero_le _, rfl⟩
  | prn | push | pop | call | jmp | jeq | jne =>
    match bytes, h with
    | _ :: _, rfl => exact ⟨rfl, Nat.le_add_left 1 _, rfl⟩
  | ldi | mul | add | cmp =>
    match bytes, h with
    | _ :: _ :: _, rfl => exact ⟨rfl, Nat.le_add_left 2 _, rfl⟩

/-- What decodes under any map begins with the byte of its own opcode, followed by that opcode's operands. -/
theorem decode_cons_ok {m : OpcodeMap} {ir : Byte} {bytes : List Byte} {i : Instr} {rest : List Byte}
    (h : decode m (ir :: bytes) = .ok (i, rest)) :
    m.byte i.opcode = ir ∧ i.opcode.operandCount ≤ bytes.length ∧ rest = bytes.drop i.opcode.operandCount := by
  cases hop : opcodeOf? m ir with
  | none =>
    rw [decode_cons_none hop] at h
    cases h
  | some op =>
    rw [decode_cons_some hop] at h
    obtain ⟨rfl, hlen, hrest⟩ := completeForm_form_ok h
    exact ⟨opcodeOf?_some hop, hlen, hrest⟩

/-- Settles O4: under a legal map the AA field of the first byte is the operand count of the instruction decoded. -/
theorem firstByteTellsTheLength : Obligations.FirstByteTellsTheLength := by
  intro c ir bytes i rest h
  obtain ⟨rfl, hlen, hrest⟩ := decode_cons_ok h
  rw [aaField_byte c.property]
  exact ⟨i.opcode.operandCount_le_two, hlen, hrest, length_encode _ i⟩

end Sys2Proof

/-! ### The operands of a known opcode (spec/40_cycle.md R105) -/

namespace Sys2Proof.Machine

/-- A raised fault is fault entry with the record of R215. -/
theorem faultsWith_raise (s : State) (op : FaultOp) (v : Int) : FaultsWith s (raise s op v) op.kind op v :=
  ⟨s.enterFaulted op v, raise_eq s op v, State.enterFaulted_status s op v, State.enterFaulted_fault s op v⟩

theorem readChecked_faultsWith {s : State} {op : FaultOp} {addr : Nat} {k : Byte → Result} (h : 255 < addr) :
    FaultsWith s (readChecked s op addr k) op.kind op addr := by
  rw [readChecked_out h]
  exact faultsWith_raise s op addr

/-- A Running step whose opcode byte is in range and known is the operand fetch of that opcode's format (R101, R102). -/
theorem stepWith_of_known {c : LegalConfig} {s : State} {op : Opcode} (hrun : s.status = .running)
    (hpc : s.pc.toNat ≤ 255) (hop : Memory.read s.mem s.pc.toNat = c.val.opcodes.byte op) :
    stepWith c s = fetchOperandsAndRun s op.form := by
  rw [stepWith_running hrun, engineStep, readChecked_in hpc, hop, opcodeOf?_byte c.property]

/-- Settles O30: the step is the operand fetch of the opcode's format, and each of its checked reads goes on with the byte or
faults. -/
theorem knownOpcodeFetchesItsOperands : Obligations.KnownOpcodeFetchesItsOperands := by
  intro c s op hrun hpc hop
  have hcount := formOperands_form op
  rw [stepWith_of_known hrun hpc hop]
  cases hform : op.form with
  | f0 i =>
    rw [hform] at hcount
    exact ⟨hcount.symm, rfl⟩
  | f1 mk =>
    rw [hform] at hcount
    simp only [fetchOperandsAndRun]
    exact ⟨hcount.symm, readChecked_in, readChecked_faultsWith⟩
  | f2 mk =>
    rw [hform] at hcount
    simp only [fetchOperandsAndRun]
    refine ⟨hcount.symm, fun hb => ?_, readChecked_faultsWith, fun ha hb => ?_⟩
    · have ha : s.pc.toNat + 1 ≤ 255 := by omega
      rw [readChecked_in ha, readChecked_in hb]
    · rw [readChecked_in ha]
      exact readChecked_faultsWith hb

end Sys2Proof.Machine

/-! ### The ALU (spec/42_alu.md R141) -/

namespace Sys2Proof.Machine

theorem toNat_aluAdd (x y : Byte) : (aluAdd x y).toNat = (x.toNat + y.toNat) % 256 := BitVec.toNat_ofNat _ 8

theorem toNat_aluMul (x y : Byte) : (aluMul x y).toNat = (x.toNat * y.toNat) % 256 := BitVec.toNat_ofNat _ 8

theorem compareFlags_of_eq {x y : Byte} (h : x.toNat = y.toNat) : compareFlags x y = 0x01 := if_pos h

theorem compareFlags_of_gt {x y : Byte} (h : y.toNat < x.toNat) : compareFlags x y = 0x02 :=
  (if_neg h.ne').trans (if_pos h)

theorem compareFlags_of_lt {x y : Byte} (h : x.toNat < y.toNat) : compareFlags x y = 0x04 :=
  (if_neg h.ne).trans (if_neg h.asymm)

/-- Exactly one of E, G, L comes out of a comparison, the one that names the order of the operands as integers. -/
theorem flags_compareFlags (x y : Byte) :
    flagE (compareFlags x y) = decide (x.toNat = y.toNat) ∧
    flagG (compareFlags x y) = decide (x.toNat > y.toNat) ∧
    flagL (compareFlags x y) = decide (x.toNat < y.toNat) := by
  obtain h | h | h := lt_trichotomy x.toNat y.toNat
  · rw [compareFlags_of_lt h, decide_eq_false h.ne, decide_eq_false h.asymm, decide_eq_true h]
    decide
  · rw [compareFlags_of_eq h, decide_eq_true h, decide_eq_false h.not_gt, decide_eq_false h.not_lt]
    decide
  · rw [compareFlags_of_gt h, decide_eq_false h.ne', decide_eq_true h, decide_eq_false h.asymm]
    decide

/-- A write to one register leaves the others. -/
theorem sameRegsBut_setReg (s : State) (i : RegIx) (v : Byte) : sameRegsBut [i] s (s.setReg i v) :=
  fun _ hj => State.reg_setReg_other s v (List.ne_of_not_mem_cons hj)

/-- An instruction that writes one register and advances pc leaves every other part of the state, FL included. -/
theorem exec_setReg_frame {ins : Instr} {s : State} {i : RegIx} {v : Byte} {n : Nat}
    (h : exec ins s = .next ((s.setReg i v).advancePc n)) :
    ∃ t, exec ins s = .next t ∧ t.reg i = v ∧ sameRegsBut [i] s t ∧ t = { s with regs := t.regs, pc := t.pc } :=
  ⟨_, h, State.reg_setReg_same s i v, sameRegsBut_setReg s i v, rfl⟩

/-- Settles O12: the results are the spec's integers modulo 256, the flags follow the trichotomy of the operands, and ADD and MUL
are one register write and a pc advance. -/
theorem aluResultsAreExactModulo256 : Obligations.AluResultsAreExactModulo256 :=
  ⟨fun x y => ⟨toNat_aluAdd x y, toNat_aluMul x y, flags_compareFlags x y⟩,
    fun s i j => ⟨exec_setReg_frame (execAdd_in s i j), exec_setReg_frame (execMul_in s i j)⟩⟩

end Sys2Proof.Machine

/-! ### The loader (spec/70_reset_and_hazards.md R246) -/

namespace Sys2Proof.Machine

/-- The memory with bytes written at consecutive addresses from `addr` on: what a load that completes leaves
(`loadBytes_in`). -/
def Memory.writeBytes (m : Memory) (addr : Nat) : List Byte → Memory
  | [] => m
  | v :: vs => Memory.writeBytes (Memory.write m addr v) (addr + 1) vs

/-- The bytes written read back from `addr` on; below `addr` and past the last byte, memory reads as before. -/
theorem Memory.read_writeBytes (vs : List Byte) (m : Memory) (addr k : Nat) :
    Memory.read (Memory.writeBytes m addr vs) k =
      if addr ≤ k then vs.getD (k - addr) (Memory.read m k) else Memory.read m k := by
  induction vs generalizing m addr with
  | nil => simp [Memory.writeBytes]
  | cons v vs ih =>
    rw [Memory.writeBytes, ih, Memory.read_write]
    obtain hlt | rfl | hgt := lt_trichotomy k addr
    · rw [if_neg (by omega), if_neg hlt.ne, if_neg (by omega)]
    · simp
    · have hpos : k - addr = (k - (addr + 1)) + 1 := by omega
      rw [if_pos (by omega), if_neg hgt.ne', if_pos hgt.le, hpos, List.getD_cons_succ]

/-- With the engine stopped, a program that ends within memory loads without an error, and only memory changes. -/
theorem loadBytes_in {s : State} (hs : s.status ≠ .running) {addr : Nat} {vs : List Byte} (h : addr + vs.length ≤ 256) :
    loadBytes addr vs s = (none, { s with mem := Memory.writeBytes s.mem addr vs }) := by
  induction vs generalizing s addr with
  | nil => rfl
  | cons v vs ih =>
    rw [List.length_cons] at h
    have hrest := ih (s := { s with mem := Memory.write s.mem addr v }) (addr := addr + 1) hs (by omega)
    exact (loadByteAt_in hs (by omega) v _).trans hrest

/-- Settles O56: the load is the program's bytes written from address 0 on, into the reset memory, which reads 0 everywhere. -/
theorem loaderPutsTheProgramFromAddressZero : Obligations.LoaderPutsTheProgramFromAddressZero := by
  intro program hlen
  have hload := loadBytes_in (s := State.reset) (addr := 0) (vs := program) (by decide) (by omega)
  refine ⟨_, hload, fun k => ?_, rfl⟩
  rw [Memory.read_writeBytes, if_pos k.zero_le, State.reset_mem, Memory.read_nil, Nat.sub_zero]

end Sys2Proof.Machine

/-! ### Encoding and decoding (spec/30_encoding.md R70, R80, R81) -/

namespace Sys2Proof

/-- The operand bytes of an instruction, in the order they are encoded (R77); `encode_eq` ties them to the encoder. -/
def Instr.operandBytes : Instr → List Byte
  | .ldi a b | .mul a b | .add a b | .cmp a b => [a, b]
  | .prn a | .push a | .pop a | .call a | .jmp a | .jeq a | .jne a => [a]
  | .hlt | .ret => []

theorem encode_eq (m : OpcodeMap) (i : Instr) : encode m i = m.byte i.opcode :: i.operandBytes := by
  cases i <;> rfl

/-- A row's format takes back the operand bytes of its own instruction and leaves what follows. -/
theorem completeForm_operandBytes (i : Instr) (rest : List Byte) :
    completeForm i.opcode.form (i.operandBytes ++ rest) = .ok (i, rest) := by
  cases i <;> rfl

/-- Settles O1: the first byte is looked up as the instruction's own opcode, whose format takes the operands back. -/
theorem decodeOfEncodeIsTheInstruction : Obligations.DecodeOfEncodeIsTheInstruction := by
  intro c i rest
  rw [encode_eq, List.cons_append, decode_cons_some (opcodeOf?_byte c.property i.opcode)]
  exact completeForm_operandBytes i rest

/-- What a row's format completes are the operand bytes of the instruction answered. -/
theorem eq_operandBytes_of_completeForm {op : Opcode} {bytes : List Byte} {i : Instr} {rest : List Byte}
    (h : completeForm op.form bytes = .ok (i, rest)) : bytes = i.operandBytes ++ rest := by
  cases op with
  | hlt | ret =>
    cases h
    rfl
  | prn | push | pop | call | jmp | jeq | jne =>
    match bytes, h with
    | _ :: _, rfl => rfl
  | ldi | mul | add | cmp =>
    match bytes, h with
    | _ :: _ :: _, rfl => rfl

/-- Settles O2: the opcode found has the first byte, and its format takes the operand bytes of the instruction answered. -/
theorem encodeOfDecodeIsTheBytes : Obligations.EncodeOfDecodeIsTheBytes := by
  intro m bytes i rest h
  cases bytes with
  | nil => cases h
  | cons ir tail =>
    cases hop : opcodeOf? m ir with
    | none =>
      rw [decode_cons_none hop] at h
      cases h
    | some op =>
      rw [decode_cons_some hop] at h
      obtain ⟨hi, -, -⟩ := completeForm_form_ok h
      rw [encode_eq, hi, opcodeOf?_some hop, eq_operandBytes_of_completeForm h, List.cons_append]

/-- Settles O3: each word is read off the default map. -/
theorem wordsWrittenFromTheTableDecode : Obligations.WordsWrittenFromTheTableDecode :=
  ⟨rfl, rfl, rfl, rfl, rfl, rfl, rfl, rfl, rfl, rfl, rfl, rfl, rfl⟩

/-- A byte is unknown exactly when it is the byte of no opcode (R80). -/
theorem opcodeOf?_eq_none_iff {m : OpcodeMap} {ir : Byte} : opcodeOf? m ir = none ↔ ∀ op : Opcode, m.byte op ≠ ir := by
  refine ⟨opcodeOf?_none, fun h => ?_⟩
  cases hop : opcodeOf? m ir with
  | none => rfl
  | some op => exact absurd (opcodeOf?_some hop) (h op)

/-- Decoding fails with `unknownOpcode` only on the lookup of the first byte, never on the operands. -/
theorem decode_unknownOpcode_iff {m : OpcodeMap} {ir : Byte} {bytes : List Byte} :
    decode m (ir :: bytes) = .error (.unknownOpcode ir) ↔ opcodeOf? m ir = none := by
  refine ⟨fun h => ?_, fun h => decode_cons_none h bytes⟩
  cases hop : opcodeOf? m ir with
  | none => rfl
  | some op =>
    rw [decode_cons_some hop] at h
    unfold completeForm at h
    split at h <;> cases h

/-- No opcode of a legal map has three operands (R75). -/
theorem byte_ne_of_aaField_eq_three {m : OpcodeMap} (hm : m.legal = true) {ir : Byte} (h : aaField ir = 3) (op : Opcode) :
    m.byte op ≠ ir := by
  rintro rfl
  have hle := op.operandCount_le_two
  rw [← aaField_byte hm op] at hle
  omega

theorem opcodeOf?_isSome_iff {m : OpcodeMap} {ir : Byte} : (opcodeOf? m ir).isSome = true ↔ ∃ op : Opcode, m.byte op = ir := by
  rw [Option.isSome_iff_ne_none, ne_eq, opcodeOf?_eq_none_iff]
  simp

/-- The known bytes of a map are the map's bytes, each once if the map is legal. -/
theorem knownBytes_perm {m : OpcodeMap} (hm : m.legal = true) :
    ((List.range 256).filter fun n => (opcodeOf? m (BitVec.ofNat 8 n)).isSome).Perm
      (Opcode.all.map fun op => (m.byte op).toNat) := by
  have hinj : Function.Injective fun op => (m.byte op).toNat := fun _ _ h => byte_injective hm (BitVec.eq_of_toNat_eq h)
  refine (List.perm_ext_iff_of_nodup (List.nodup_range.filter _) (Opcode.nodup_all.map hinj)).mpr fun n => ?_
  rw [List.mem_filter, List.mem_range, opcodeOf?_isSome_iff, List.mem_map]
  constructor
  · rintro ⟨hn, op, hop⟩
    exact ⟨op, op.mem_all, by rw [hop, BitVec.toNat_ofNat, Nat.mod_eq_of_lt hn]⟩
  · rintro ⟨op, -, rfl⟩
    exact ⟨(m.byte op).isLt, op, by rw [BitVec.ofNat_toNat, BitVec.setWidth_eq]⟩

/-- A legal map leaves 256 - 13 bytes unknown. -/
theorem length_unknownBytes {m : OpcodeMap} (hm : m.legal = true) :
    ((List.range 256).filter fun n => (opcodeOf? m (BitVec.ofNat 8 n)).isNone).length = 243 := by
  have hknown := (knownBytes_perm hm).length_eq
  have hsplit := (List.range 256).length_eq_length_filter_add fun n => (opcodeOf? m (BitVec.ofNat 8 n)).isSome
  rw [hknown, List.length_map, List.length_range, show Opcode.all.length = 13 from rfl] at hsplit
  simp only [Option.not_isSome] at hsplit
  omega

/-- Settles O6: unknown is failing the lookup, the lookup fails outside the map's bytes, and a legal map has thirteen bytes. -/
theorem unknownBytesAreExactlyThoseOutsideTheMap : Obligations.UnknownBytesAreExactlyThoseOutsideTheMap := by
  refine ⟨fun m ir bytes => decode_unknownOpcode_iff.trans opcodeOf?_eq_none_iff, fun c ir bytes h => ?_,
    length_unknownBytes defaultConfig.property⟩
  exact decode_unknownOpcode_iff.mpr (opcodeOf?_eq_none_iff.mpr (byte_ne_of_aaField_eq_three c.property h))

end Sys2Proof

/-! ### What one instruction can do -/

namespace Sys2Proof.Machine

/-- `Completes s i t`: instruction `i` completes in `s` and leaves `t`, one row of spec/41 to spec/44 per constructor. That these
are exactly the ways an instruction answers without a fault is `Completes.exec_eq` and `exec_next_inv`. -/
inductive Completes (s : State) : Instr → State → Prop where
  | ldi (i : RegIx) (v : Byte) : Completes s (.ldi (regByte i) v) ((s.setReg i v).advancePc 3)
  | prn (i : RegIx) : Completes s (.prn (regByte i)) ((s.emit (s.reg i)).advancePc 2)
  | hlt : Completes s .hlt ((s.setStatus .halted).advancePc 1)
  | mul (i j : RegIx) :
    Completes s (.mul (regByte i) (regByte j)) ((s.setReg i (aluMul (s.reg i) (s.reg j))).advancePc 3)
  | add (i j : RegIx) :
    Completes s (.add (regByte i) (regByte j)) ((s.setReg i (aluAdd (s.reg i) (s.reg j))).advancePc 3)
  | cmp (i j : RegIx) :
    Completes s (.cmp (regByte i) (regByte j)) ((s.setFl (compareFlags (s.reg i) (s.reg j))).advancePc 3)
  | push (i : RegIx) (hsp : s.sp ≠ 0) : Completes s (.push (regByte i))
      (((s.setReg spIx (s.sp - 1)).storeByte (s.sp - 1) ((s.setReg spIx (s.sp - 1)).reg i)).advancePc 2)
  | pop (i : RegIx) (hsp : (s.setReg i (s.loadByte s.sp)).sp ≠ 255) : Completes s (.pop (regByte i))
      (((s.setReg i (s.loadByte s.sp)).setReg spIx ((s.setReg i (s.loadByte s.sp)).sp + 1)).advancePc 2)
  | call (i : RegIx) (hsp : s.sp ≠ 0) (hpc : s.pc.toNat + 2 ≤ 255) : Completes s (.call (regByte i))
      (((s.setReg spIx (s.sp - 1)).storeByte (s.sp - 1) (BitVec.ofNat 8 (s.pc.toNat + 2))).jumpTo
        ((s.setReg spIx (s.sp - 1)).reg i))
  | ret (hsp : s.sp ≠ 255) : Completes s .ret ((s.setReg spIx (s.sp + 1)).jumpTo (s.loadByte s.sp))
  | jmp (i : RegIx) : Completes s (.jmp (regByte i)) (s.jumpTo (s.reg i))
  | jeqTaken (i : RegIx) (hE : flagE s.fl = true) : Completes s (.jeq (regByte i)) (s.jumpTo (s.reg i))
  | jeqNotTaken (a : Byte) (hE : flagE s.fl = false) : Completes s (.jeq a) (s.advancePc 2)
  | jneTaken (i : RegIx) (hE : flagE s.fl = false) : Completes s (.jne (regByte i)) (s.jumpTo (s.reg i))
  | jneNotTaken (a : Byte) (hE : flagE s.fl = true) : Completes s (.jne a) (s.advancePc 2)

theorem Completes.exec_eq {i : Instr} {s t : State} (h : Completes s i t) : exec i s = .next t := by
  cases h with
  | ldi i v => exact execLdi_in s i v
  | prn i => exact execPrn_in s i
  | hlt => exact execHlt_eq s
  | mul i j => exact execMul_in s i j
  | add i j => exact execAdd_in s i j
  | cmp i j => exact execCmp_in s i j
  | push i hsp => exact execPush_in i hsp
  | pop i hsp => exact execPop_in i hsp
  | call i hsp hpc => exact execCall_in i hsp hpc
  | ret hsp => exact execRet_in hsp
  | jmp i => exact execJmp_in s i
  | jeqTaken i hE => exact (execJeq_taken hE _).trans (withReadOperand_regByte s i _)
  | jeqNotTaken a hE => exact execJeq_notTaken hE a
  | jneTaken i hE => exact (execJne_taken hE _).trans (withReadOperand_regByte s i _)
  | jneNotTaken a hE => exact execJne_notTaken hE a

/-- The faults an instruction with `n` operand bytes can raise at `pc`, with their values (R161, R182, R212). -/
def InstrFault (pc : Pc) (n : Nat) : FaultOp → Int → Prop
  | .registerRead, v | .registerWrite, v => 1 ≤ n ∧ 8 ≤ v ∧ v ≤ 255
  | .stackAdjust, v => v = -1 ∨ v = 256
  | .returnAddress, v => 1 ≤ n ∧ 255 < pc.toNat + 2 ∧ v = (pc.toNat + 2 : Nat)
  | .none, _ | .fetchOpcode, _ | .fetchOperand, _ | .decode, _ => False

theorem InstrFault.op_ne_none {pc : Pc} {n : Nat} {op : FaultOp} {v : Int} (h : InstrFault pc n op v) : op ≠ .none := by
  rintro rfl
  exact h

theorem InstrFault.registerRead {pc : Pc} {n : Nat} {a : Byte} (hn : 1 ≤ n) (ha : 8 ≤ a.toNat) :
    InstrFault pc n .registerRead a.toNat := ⟨hn, by have := byte_lt a; omega⟩

theorem InstrFault.registerWrite {pc : Pc} {n : Nat} {a : Byte} (hn : 1 ≤ n) (ha : 8 ≤ a.toNat) :
    InstrFault pc n .registerWrite a.toNat := InstrFault.registerRead (pc := pc) hn ha

/-- An instruction completes or takes one of its faults, and a fault is fault entry in the state it began in (R214, R215). -/
theorem exec_next_inv {i : Instr} {s t : State} (h : exec i s = .next t) :
    Completes s i t ∨ ∃ op v, InstrFault s.pc i.opcode.operandCount op v ∧ t = s.enterFaulted op v := by
  cases i with
  | ldi a b =>
    obtain ⟨i, rfl, e⟩ | ⟨ha, e⟩ := execLdi_cases h <;> cases e
    · exact .inl (.ldi i b)
    · exact .inr ⟨_, _, .registerWrite (Nat.succ_pos _) ha, rfl⟩
  | prn a =>
    obtain ⟨i, rfl, e⟩ | ⟨ha, e⟩ := execPrn_cases h <;> cases e
    · exact .inl (.prn i)
    · exact .inr ⟨_, _, .registerRead (Nat.succ_pos _) ha, rfl⟩
  | hlt =>
    cases h
    exact .inl .hlt
  | mul a b =>
    obtain ⟨i, j, rfl, rfl, e⟩ | ⟨ha, e⟩ | ⟨-, hb, e⟩ := execMul_cases h <;> cases e
    · exact .inl (.mul i j)
    · exact .inr ⟨_, _, .registerRead (Nat.succ_pos _) ha, rfl⟩
    · exact .inr ⟨_, _, .registerRead (Nat.succ_pos _) hb, rfl⟩
  | add a b =>
    obtain ⟨i, j, rfl, rfl, e⟩ | ⟨ha, e⟩ | ⟨-, hb, e⟩ := execAdd_cases h <;> cases e
    · exact .inl (.add i j)
    · exact .inr ⟨_, _, .registerRead (Nat.succ_pos _) ha, rfl⟩
    · exact .inr ⟨_, _, .registerRead (Nat.succ_pos _) hb, rfl⟩
  | cmp a b =>
    obtain ⟨i, j, rfl, rfl, e⟩ | ⟨ha, e⟩ | ⟨-, hb, e⟩ := execCmp_cases h <;> cases e
    · exact .inl (.cmp i j)
    · exact .inr ⟨_, _, .registerRead (Nat.succ_pos _) ha, rfl⟩
    · exact .inr ⟨_, _, .registerRead (Nat.succ_pos _) hb, rfl⟩
  | push a =>
    obtain ⟨i, rfl, hsp, e⟩ | ⟨ha, e⟩ | ⟨-, -, e⟩ := execPush_cases h <;> cases e
    · exact .inl (.push i hsp)
    · exact .inr ⟨_, _, .registerRead (Nat.succ_pos _) ha, rfl⟩
    · exact .inr ⟨.stackAdjust, _, .inl rfl, rfl⟩
  | pop a =>
    obtain ⟨i, rfl, hsp, e⟩ | ⟨ha, e⟩ | ⟨i, -, -, e⟩ := execPop_cases h <;> cases e
    · exact .inl (.pop i hsp)
    · exact .inr ⟨_, _, .registerWrite (Nat.succ_pos _) ha, rfl⟩
    · exact .inr ⟨.stackAdjust, _, .inr rfl, rfl⟩
  | call a =>
    obtain ⟨i, rfl, hsp, hpc, e⟩ | ⟨ha, e⟩ | ⟨-, -, e⟩ | ⟨-, -, hpc, e⟩ := execCall_cases h <;> cases e
    · exact .inl (.call i hsp hpc)
    · exact .inr ⟨_, _, .registerRead (Nat.succ_pos _) ha, rfl⟩
    · exact .inr ⟨.stackAdjust, _, .inl rfl, rfl⟩
    · exact .inr ⟨.returnAddress, _, ⟨Nat.succ_pos _, hpc, rfl⟩, rfl⟩
  | ret =>
    obtain ⟨hsp, e⟩ | ⟨-, e⟩ := execRet_cases h <;> cases e
    · exact .inl (.ret hsp)
    · exact .inr ⟨.stackAdjust, _, .inr rfl, rfl⟩
  | jmp a =>
    obtain ⟨i, rfl, e⟩ | ⟨ha, e⟩ := execJmp_cases h <;> cases e
    · exact .inl (.jmp i)
    · exact .inr ⟨_, _, .registerRead (Nat.succ_pos _) ha, rfl⟩
  | jeq a =>
    obtain ⟨hE, i, rfl, e⟩ | ⟨hE, e⟩ | ⟨-, ha, e⟩ := execJeq_cases h <;> cases e
    · exact .inl (.jeqTaken i hE)
    · exact .inl (.jeqNotTaken a hE)
    · exact .inr ⟨_, _, .registerRead (Nat.succ_pos _) ha, rfl⟩
  | jne a =>
    obtain ⟨hE, i, rfl, e⟩ | ⟨hE, e⟩ | ⟨-, ha, e⟩ := execJne_cases h <;> cases e
    · exact .inl (.jneTaken i hE)
    · exact .inl (.jneNotTaken a hE)
    · exact .inr ⟨_, _, .registerRead (Nat.succ_pos _) ha, rfl⟩

/-- A completed instruction leaves the fault record, and only HLT changes status. -/
theorem Completes.status {i : Instr} {s t : State} (h : Completes s i t) :
    t.fault = s.fault ∧ t.status = if i = .hlt then .halted else s.status := by
  cases h <;> exact ⟨rfl, rfl⟩

/-- What does not end in Faulted has completed. -/
theorem completes_of_exec {i : Instr} {s t : State} (h : exec i s = .next t) (ht : t.status ≠ .faulted) : Completes s i t := by
  obtain hc | ⟨op, v, -, rfl⟩ := exec_next_inv h
  · exact hc
  · exact absurd (State.enterFaulted_status s op v) ht

/-! ### The next-pc summary (spec/40_cycle.md R109) -/

/-- The register a byte names, read with SP already set to `v`. -/
theorem regOr_regByte (s : State) (v : Byte) (i : RegIx) : regOr s v (regByte i) = (s.setReg spIx v).reg i := by
  have hi : (regByte i).toNat = i.val := regByte_toNat i
  by_cases h7 : i = spIx
  · subst h7
    rw [State.reg_setReg_same]
    rfl
  · have hne : i.val ≠ 7 := fun e => h7 (Fin.ext e)
    rw [State.reg_setReg_other s v h7]
    simp [regOr, hi, hne]

theorem regOr_sp_regByte (s : State) (i : RegIx) : regOr s s.sp (regByte i) = s.reg i := by
  rw [regOr_regByte]
  by_cases h7 : i = spIx
  · rw [h7, State.reg_setReg_same, State.sp_eq_reg]
  · exact State.reg_setReg_other s _ h7

theorem Completes.pc_eq_nextPc {i : Instr} {s t : State} (h : Completes s i t) : t.pc = nextPc i s := by
  cases h with
  | ldi | prn | hlt | mul | add | cmp | push | pop | ret => rfl
  | call i => rw [nextPc, regOr_regByte]; rfl
  | jmp i => rw [nextPc, regOr_sp_regByte]; rfl
  | jeqTaken i hE => rw [nextPc, if_pos hE, regOr_sp_regByte]; rfl
  | jeqNotTaken a hE => rw [nextPc, hE]; rfl
  | jneTaken i hE => rw [nextPc, hE, regOr_sp_regByte]; rfl
  | jneNotTaken a hE => rw [nextPc, if_pos hE]; rfl

/-- Settles O39: each row's completed state has the pc of the summary. -/
theorem nextPcIsThatOfTheSummary : Obligations.NextPcIsThatOfTheSummary :=
  fun _ _ _ h ht => (completes_of_exec h ht).pc_eq_nextPc

/-! ### What one step can do -/

/-- The step at `s` fetches instruction `i`: its opcode byte is at pc and its operand bytes follow, inside memory (R101 to
R105). -/
structure FetchedAt (c : LegalConfig) (s : State) (i : Instr) : Prop where
  opcode : c.val.opcodes.byte i.opcode = Memory.read s.mem s.pc.toNat
  inRange : s.pc.toNat + i.opcode.operandCount ≤ 255
  operands : i.operandBytes =
    [Memory.read s.mem (s.pc.toNat + 1), Memory.read s.mem (s.pc.toNat + 2)].take i.opcode.operandCount

/-- The step at `s` skips an unknown byte and leaves `t` (R104). -/
structure Skips (c : LegalConfig) (s t : State) : Prop where
  inRange : s.pc.toNat ≤ 255
  unknown : ∀ op : Opcode, c.val.opcodes.byte op ≠ Memory.read s.mem s.pc.toNat
  next_eq : t = if cField (Memory.read s.mem s.pc.toNat) then s else s.advancePc (1 + aaField (Memory.read s.mem s.pc.toNat))

/-- The faults of the cycle itself, before an instruction runs, with their values (R101, R103, R105). -/
def FetchFault (pc : Pc) : FaultOp → Int → Prop
  | .fetchOpcode, v => 255 < pc.toNat ∧ v = pc.toNat
  | .fetchOperand, v => pc.toNat ≤ 255 ∧ v = 256
  | .decode, v => pc.toNat ≤ 255 ∧ 0 ≤ v ∧ v ≤ 255
  | .none, _ | .registerRead, _ | .registerWrite, _ | .stackAdjust, _ | .returnAddress, _ => False

/-- The faults of a step: those of the cycle and those of the instruction it fetched. -/
def StepFault (c : LegalConfig) (s : State) (op : FaultOp) (v : Int) : Prop :=
  FetchFault s.pc op v ∨ ∃ i, FetchedAt c s i ∧ InstrFault s.pc i.opcode.operandCount op v

theorem StepFault.op_ne_none {c : LegalConfig} {s : State} {op : FaultOp} {v : Int} (h : StepFault c s op v) :
    op ≠ .none := by
  rintro rfl
  obtain h | ⟨i, -, h⟩ := h <;> exact h

/-- A row's format takes the operand bytes from the two bytes after the opcode. -/
theorem operandBytes_eq_take {i : Instr} {x y : Byte} {rest rest' : List Byte}
    (h : completeForm i.opcode.form (x :: y :: rest) = .ok (i, rest')) :
    i.operandBytes = [x, y].take i.opcode.operandCount := by
  have hbytes := eq_operandBytes_of_completeForm h
  cases i <;> simp_all [Instr.operandBytes, Instr.opcode, Opcode.operandCount]

/-- Everything a step that answers a next state can have been: a fault, a skip, or a completed instruction (R100). -/
theorem stepWith_next_inv {c : LegalConfig} {s t : State} (h : stepWith c s = .next t) :
    s.status = .running ∧
    ((∃ op v, StepFault c s op v ∧ t = s.enterFaulted op v) ∨ Skips c s t ∨ ∃ i, FetchedAt c s i ∧ Completes s i t) := by
  obtain ⟨hrun, hcases⟩ := stepWith_next_cases h
  refine ⟨hrun, ?_⟩
  obtain ⟨hpc, e⟩ | ⟨hpc, -, -, e⟩ | ⟨hpc, hunknown, -, e⟩ | ⟨hpc, e⟩ | ⟨hpc, e⟩ | ⟨i, rest, hop, hpc, hform, hx⟩ := hcases
  · exact .inl ⟨.fetchOpcode, _, .inl ⟨hpc, rfl⟩, e⟩
  · exact .inl ⟨.decode, _, .inl ⟨hpc, by omega, by have := byte_lt (Memory.read s.mem s.pc.toNat); omega⟩, e⟩
  · exact .inr (.inl ⟨hpc, hunknown, e⟩)
  · exact .inl ⟨.fetchOperand, _, .inl ⟨by omega, rfl⟩, e⟩
  · exact .inl ⟨.fetchOperand, _, .inl ⟨by omega, rfl⟩, e⟩
  · have hfetch : FetchedAt c s i := ⟨hop, hpc, operandBytes_eq_take hform⟩
    obtain hc | ⟨op, v, hf, e⟩ := exec_next_inv hx
    · exact .inr (.inr ⟨i, hfetch, hc⟩)
    · exact .inl ⟨op, v, .inr ⟨i, hfetch, hf⟩, e⟩

theorem Skips.status {c : LegalConfig} {s t : State} (h : Skips c s t) : t.status = s.status ∧ t.fault = s.fault := by
  rw [h.next_eq]
  split <;> exact ⟨rfl, rfl⟩

theorem Completes.status_ne_faulted {i : Instr} {s t : State} (h : Completes s i t) (hrun : s.status = .running) :
    t.status ≠ .faulted := by
  rw [h.status.2, hrun]
  split <;> decide

/-- Of the faults, `decode` alone is an unsupported operation (R211). -/
theorem FaultOp.kind_of_ne_none {op : FaultOp} (h : op ≠ .none) :
    (op = .decode ∧ op.kind = .unsupportedOperation) ∨ (op ≠ .none ∧ op ≠ .decode ∧ op.kind = .outOfRange) := by
  cases op <;> simp_all [FaultOp.kind]

/-- A step that ends in Faulted took one of the faults of a step. -/
theorem stepFault_of_faulted {c : LegalConfig} {s t : State} (h : stepWith c s = .next t) (ht : t.status = .faulted) :
    ∃ op v, StepFault c s op v ∧ t = s.enterFaulted op v := by
  obtain ⟨hrun, hf | hskip | ⟨i, -, hc⟩⟩ := stepWith_next_inv h
  · exact hf
  · rw [hskip.status.1, hrun] at ht
    cases ht
  · exact absurd ht (hc.status_ne_faulted hrun)

/-- Settles O34: fault entry writes status and the record and nothing else. -/
theorem faultsCommitNothing : Obligations.FaultsCommitNothing := by
  intro c s t h ht
  obtain ⟨op, v, hf, rfl⟩ := stepFault_of_faulted h ht
  exact ⟨fun _ _ => rfl, fun _ _ => rfl, rfl, rfl, rfl, rfl, FaultOp.kind_of_ne_none hf.op_ne_none⟩

/-- Settles O40: a fault, a skip or a completed instruction, of which only HLT changes status. -/
theorem runningIsLeftByHltOrFaultOnly : Obligations.RunningIsLeftByHltOrFaultOnly := by
  intro c s t h
  obtain ⟨hrun, ⟨op, v, hf, rfl⟩ | hskip | ⟨i, hi, hc⟩⟩ := stepWith_next_inv h
  · refine .inr (.inr ⟨rfl, ?_⟩)
    obtain ⟨-, hk⟩ | ⟨-, -, hk⟩ := FaultOp.kind_of_ne_none hf.op_ne_none <;> simp [hk]
  · exact .inl ⟨hskip.status.1.trans hrun, hskip.status.2⟩
  · obtain ⟨hfault, hstatus⟩ := hc.status
    by_cases hhlt : i = .hlt
    · subst hhlt
      rw [if_pos rfl] at hstatus
      exact .inr (.inl ⟨hstatus, hfault, hi.inRange, hi.opcode.symm, hc.pc_eq_nextPc⟩)
    · rw [if_neg hhlt, hrun] at hstatus
      exact .inl ⟨hstatus, hfault⟩

/-! ### Every step keeps the states legal (R26, R27, R31, R33, R211) -/

/-- A fault of a step is a row of the fault table, from a pc that a legal state can have. -/
theorem StepFault.legal {c : LegalConfig} {s : State} {op : FaultOp} {v : Int} (h : StepFault c s op v)
    (hpc : s.pc.toNat ≤ 259) : legalFaultValue ⟨op.kind, op, v, s.pc⟩ := by
  obtain h | ⟨i, hi, h⟩ := h
  · cases op with
    | none | registerRead | registerWrite | stackAdjust | returnAddress => exact h.elim
    | fetchOpcode =>
      obtain ⟨hlow, rfl⟩ := h
      exact ⟨rfl, show (256 : Int) ≤ s.pc.toNat by omega, show (s.pc.toNat : Int) ≤ 259 by omega⟩
    | fetchOperand =>
      obtain ⟨hlow, rfl⟩ := h
      exact ⟨.inl rfl, hlow⟩
    | decode =>
      obtain ⟨hlow, hv⟩ := h
      exact ⟨hv.1, hv.2, hlow⟩
  · have hend := hi.inRange
    cases op with
    | none | fetchOpcode | fetchOperand | decode => exact h.elim
    | registerRead | registerWrite =>
      obtain ⟨hn, hlow, hhigh⟩ := h
      exact ⟨hlow, hhigh, show s.pc.toNat ≤ 254 by omega⟩
    | stackAdjust => exact ⟨h, show s.pc.toNat ≤ 255 by omega⟩
    | returnAddress =>
      obtain ⟨hn, hout, rfl⟩ := h
      have h254 : s.pc.toNat = 254 := by omega
      exact ⟨by rw [h254]; rfl, BitVec.eq_of_toNat_eq h254⟩

theorem State.Inv.enterFaulted {c : LegalConfig} {s : State} {op : FaultOp} {v : Int} (h : s.Inv) (hf : StepFault c s op v) :
    (s.enterFaulted op v).Inv := by
  obtain ⟨hmem, hfl, hpc, -⟩ := h
  refine ⟨hmem, hfl, hpc, ?_⟩
  rw [legalFaultRecord, if_pos (State.enterFaulted_status s op v)]
  exact ⟨hf.op_ne_none, rfl, rfl, hf.legal hpc⟩

/-- A completed instruction leaves memory, or is PUSH or CALL and wrote the byte below SP (R51). -/
theorem Completes.mem_cases {i : Instr} {s t : State} (h : Completes s i t) :
    t.mem = s.mem ∨
      ((i.opcode = .push ∨ i.opcode = .call) ∧ s.sp ≠ 0 ∧ ∃ v, t.mem = Memory.write s.mem (s.sp - 1).toNat v) := by
  cases h with
  | ldi | prn | hlt | mul | add | cmp | pop | ret | jmp | jeqTaken | jeqNotTaken | jneTaken | jneNotTaken => exact .inl rfl
  | push i hsp => exact .inr ⟨.inl rfl, hsp, _, rfl⟩
  | call i hsp => exact .inr ⟨.inr rfl, hsp, _, rfl⟩

theorem Completes.wf_mem {i : Instr} {s t : State} (h : Completes s i t) (hs : Memory.wf s.mem = true) :
    Memory.wf t.mem = true := by
  obtain e | ⟨-, -, v, e⟩ := h.mem_cases
  · rwa [e]
  · rw [e]
    exact Memory.wf_write v (byte_lt _) hs

/-- A completed instruction leaves FL or sets it by a comparison (R28). -/
theorem Completes.fl_cases {i : Instr} {s t : State} (h : Completes s i t) :
    t.fl = s.fl ∨ ∃ x y, t.fl = compareFlags x y := by
  cases h with
  | cmp i j => exact .inr ⟨_, _, rfl⟩
  | _ => exact .inl rfl

theorem legalFlags_compareFlags (x y : Byte) : legalFlags (compareFlags x y) := .inr (compareFlags_cases x y)

/-- A completed instruction goes to the next instruction, always so where its row does not set pc, or to a byte (R107, R180). -/
theorem Completes.pc_cases {i : Instr} {s t : State} (h : Completes s i t) :
    t.pc = (s.advancePc (1 + i.opcode.operandCount)).pc ∨ (i.opcode.setsPc = true ∧ ∃ v : Byte, t.pc = (s.jumpTo v).pc) := by
  cases h with
  | ldi | prn | hlt | mul | add | cmp | push | pop | jeqNotTaken | jneNotTaken => exact .inl rfl
  | call | ret | jmp | jeqTaken | jneTaken => exact .inr ⟨rfl, _, rfl⟩

theorem Completes.pc_le {i : Instr} {s t : State} (h : Completes s i t) (hpc : s.pc.toNat + i.opcode.operandCount ≤ 255) :
    t.pc.toNat ≤ 256 := by
  obtain e | ⟨-, v, e⟩ := h.pc_cases
  · rw [e, State.advancePc_toNat s (by omega)]
    omega
  · rw [e, State.jumpTo_toNat]
    exact (byte_lt v).le

theorem Skips.pc_le {c : LegalConfig} {s t : State} (h : Skips c s t) : t.pc.toNat ≤ 259 := by
  have hpc := h.inRange
  have haa := aaField_le (Memory.read s.mem s.pc.toNat)
  rw [h.next_eq]
  split
  · omega
  · rw [State.advancePc_toNat s (by omega)]
    omega

/-- A state whose status is not Faulted and whose record is that of a legal Running state has a legal record. -/
theorem legalFaultRecord_of_running {s t : State} (hs : legalFaultRecord s) (hrun : s.status = .running)
    (ht : t.status ≠ .faulted) (hfault : t.fault = s.fault) : legalFaultRecord t := by
  rw [legalFaultRecord, if_neg (by rw [hrun]; decide)] at hs
  rw [legalFaultRecord, if_neg ht, hfault, hs]

theorem Completes.inv {c : LegalConfig} {i : Instr} {s t : State} (h : Completes s i t) (hi : FetchedAt c s i)
    (hrun : s.status = .running) (hs : s.Inv) : t.Inv := by
  obtain ⟨hmem, hfl, -, hfault⟩ := hs
  refine ⟨h.wf_mem hmem, ?_, (h.pc_le hi.inRange).trans (by decide),
    legalFaultRecord_of_running hfault hrun (h.status_ne_faulted hrun) h.status.1⟩
  obtain e | ⟨x, y, e⟩ := h.fl_cases
  · rwa [e]
  · rw [e]
    exact legalFlags_compareFlags x y

theorem Skips.inv {c : LegalConfig} {s t : State} (h : Skips c s t) (hrun : s.status = .running) (hs : s.Inv) : t.Inv := by
  obtain ⟨hmem, hfl, -, hfault⟩ := hs
  obtain ⟨hstatus, hrecord⟩ := h.status
  have hsame : t.mem = s.mem ∧ t.fl = s.fl := by
    rw [h.next_eq]
    split <;> exact ⟨rfl, rfl⟩
  refine ⟨by rwa [hsame.1], by rwa [hsame.2], h.pc_le, legalFaultRecord_of_running hfault hrun ?_ hrecord⟩
  rw [hstatus, hrun]
  decide

/-- Settles O50: a step is a fault, a skip or a completed instruction, and each keeps the invariant. -/
theorem stepKeepsStatesLegal : Obligations.StepKeepsStatesLegal := by
  intro c s t hs h
  obtain ⟨hrun, ⟨op, v, hf, rfl⟩ | hskip | ⟨i, hi, hc⟩⟩ := stepWith_next_inv h
  · exact hs.enterFaulted hf
  · exact hskip.inv hrun hs
  · exact hc.inv hi hrun hs

/-- Settles O49: memory is empty, FL and pc are 0 and there is no fault. -/
theorem resetIsLegal : Obligations.ResetIsLegal := ⟨rfl, .inl rfl, Nat.zero_le _, rfl⟩

end Sys2Proof.Machine

/-! ### The host port (spec/10_state.md R40, R41, spec/70_reset_and_hazards.md R240, R244) -/

namespace Sys2Proof.Machine

theorem whileNotRunning_running {s : State} (h : s.status = .running) (r : HostReply × State) :
    whileNotRunning s r = (.refused, s) := by
  simp [whileNotRunning, running_eq, h]

theorem hostRead_in {addr : Nat} (h : addr ≤ 255) (s : State) : hostRead addr s = (.byte (Memory.read s.mem addr), s) :=
  if_pos h

theorem hostRead_out {addr : Nat} (h : 255 < addr) (s : State) : hostRead addr s = (.outOfRange addr, s) :=
  if_neg (by omega)

theorem hostGetReg_in {i : Nat} (h : i < 8) (s : State) : hostGetReg i s = (.byte (s.reg ⟨i, h⟩), s) := dif_pos h

theorem hostGetReg_out {i : Nat} (h : 8 ≤ i) (s : State) : hostGetReg i s = (.outOfRange i, s) := dif_neg (by omega)

theorem hostSetReg_in {i : Nat} (h : i < 8) (v : Byte) (s : State) : hostSetReg i v s = (.done, s.setReg ⟨i, h⟩ v) :=
  dif_pos h

theorem hostSetReg_out {i : Nat} (h : 8 ≤ i) (v : Byte) (s : State) : hostSetReg i v s = (.outOfRange i, s) :=
  dif_neg (by omega)

theorem hostStart_idle {s : State} (h : s.status = .idle) : hostStart s = (.done, s.setStatus .running) := by
  simp [hostStart, h]

theorem hostStart_of_ne_idle {s : State} (h : s.status ≠ .idle) : hostStart s = (.ignored, s) := by
  cases hstatus : s.status with
  | idle => exact absurd hstatus h
  | running | halted | faulted => simp [hostStart, hstatus]

/-- `HostEffect s t`: the ways a host operation other than Reset can leave the state. -/
inductive HostEffect (s : State) : State → Prop where
  | none : HostEffect s s
  | write (addr : Nat) (v : Byte) (h : addr < 256) : HostEffect s { s with mem := Memory.write s.mem addr v }
  | setReg (i : RegIx) (v : Byte) : HostEffect s (s.setReg i v)
  | start (h : s.status = .idle) : HostEffect s (s.setStatus .running)

theorem hostEffect_whileNotRunning {s : State} {r : HostReply × State} (h : HostEffect s r.2) :
    HostEffect s (whileNotRunning s r).2 := by
  obtain ⟨-, e⟩ | ⟨-, e⟩ := whileNotRunning_cases s r <;> rw [e]
  · exact .none
  · exact h

/-- Every host operation but Reset has one of these effects (R40, R41). -/
theorem hostEffect_hostOp {op : HostOp} (hop : op ≠ .reset) (s : State) : HostEffect s (hostOp op s).2 := by
  cases op with
  | reset => exact absurd rfl hop
  | getStatus => exact .none
  | read addr =>
    refine hostEffect_whileNotRunning ?_
    by_cases h : addr ≤ 255
    · rw [hostRead_in h]; exact .none
    · rw [hostRead_out (by omega)]; exact .none
  | write addr v =>
    refine hostEffect_whileNotRunning ?_
    by_cases h : addr ≤ 255
    · rw [hostWrite_in h]; exact .write addr v (by omega)
    · rw [hostWrite_out (by omega)]; exact .none
  | getReg i =>
    refine hostEffect_whileNotRunning ?_
    by_cases h : i < 8
    · rw [hostGetReg_in h]; exact .none
    · rw [hostGetReg_out (by omega)]; exact .none
  | setReg i v =>
    refine hostEffect_whileNotRunning ?_
    by_cases h : i < 8
    · rw [hostSetReg_in h]; exact .setReg _ v
    · rw [hostSetReg_out (by omega)]; exact .none
  | start =>
    refine hostEffect_whileNotRunning ?_
    by_cases h : s.status = .idle
    · rw [hostStart_idle h]; exact .start h
    · rw [hostStart_of_ne_idle h]; exact .none

theorem HostEffect.inv {s t : State} (h : HostEffect s t) (hs : s.Inv) : t.Inv := by
  obtain ⟨hmem, hfl, hpc, hfault⟩ := hs
  cases h with
  | none => exact ⟨hmem, hfl, hpc, hfault⟩
  | write addr v h => exact ⟨Memory.wf_write v h hmem, hfl, hpc, hfault⟩
  | setReg i v => exact ⟨hmem, hfl, hpc, hfault⟩
  | start h =>
    rw [legalFaultRecord, if_neg (by rw [h]; decide)] at hfault
    exact ⟨hmem, hfl, hpc, hfault⟩

/-- Settles O51: Reset gives the legal reset state, and the effects of the other operations keep the invariant. -/
theorem hostOperationsKeepStatesLegal : Obligations.HostOperationsKeepStatesLegal := by
  intro op s hs
  by_cases hop : op = .reset
  · rw [hop]
    exact resetIsLegal
  · exact (hostEffect_hostOp hop s).inv hs

/-- Settles O52: the invariant holds at reset and every move of the engine and of the host keeps it. -/
theorem reachableStatesAreLegal : Obligations.ReachableStatesAreLegal := by
  intro c s hreach
  induction hreach with
  | reset => exact resetIsLegal
  | engine s t _ hstep ih => exact stepKeepsStatesLegal c s t ih hstep
  | host op s _ ih => exact hostOperationsKeepStatesLegal op s ih

/-- Settles O53: a stopped core answers with the operation itself, in range or out of it. -/
theorem hostPortReadsAndWritesInRange : Obligations.HostPortReadsAndWritesInRange := by
  intro s n v hs
  simp only [hostOp, whileNotRunning_stopped hs]
  refine ⟨fun h => ⟨hostRead_in h s, _, hostWrite_in h v s, ?_, ?_, rfl⟩,
    fun h => ⟨hostRead_out h s, hostWrite_out h v s⟩,
    fun h => ⟨hostGetReg_in h s, _, hostSetReg_in h v s, ?_, sameRegsBut_setReg s _ v, rfl⟩,
    fun h => ⟨hostGetReg_out h s, hostSetReg_out h v s⟩⟩
  · exact Memory.read_write_same s.mem n v
  · exact fun addr haddr => Memory.read_write_other s.mem v (List.ne_of_not_mem_cons haddr)
  · exact State.reg_setReg_same s _ v

/-- Settles O54: every operation but HostGetStatus and Reset is guarded. -/
theorem hostPortIsRefusedWhileRunning : Obligations.HostPortIsRefusedWhileRunning := by
  refine ⟨fun op s hrun hstatus hreset => ?_, fun s => rfl⟩
  cases op with
  | getStatus => exact absurd rfl hstatus
  | reset => exact absurd rfl hreset
  | read | write | getReg | setReg | start => exact whileNotRunning_running hrun _

/-- Outside Idle no effect of the host changes status. -/
theorem HostEffect.status_of_ne_idle {s t : State} (h : HostEffect s t) (hs : s.status ≠ .idle) : t.status = s.status := by
  cases h with
  | none | write | setReg => rfl
  | start h => exact absurd h hs

/-- Settles O55: Start is guarded and acts on Idle alone, and no effect of the host but Start's changes status. -/
theorem onlyResetLeavesHaltedOrFaulted : Obligations.OnlyResetLeavesHaltedOrFaulted := by
  refine ⟨fun s hidle => ?_, fun s hs => ?_, fun op s hs hop => ?_⟩
  · exact (whileNotRunning_stopped (by rw [hidle]; decide) _).trans (hostStart_idle hidle)
  · obtain ⟨-, e⟩ | ⟨-, e⟩ := whileNotRunning_cases s (hostStart s)
    · exact congrArg Prod.snd e
    · exact congrArg Prod.snd (e.trans (hostStart_of_ne_idle hs))
  · refine (hostEffect_hostOp hop s).status_of_ne_idle ?_
    intro hidle
    simp [hidle] at hs

/-- Settles O9: Reset gives the reset state, whose fields are read off. -/
theorem resetSetsEveryPieceOfState : Obligations.ResetSetsEveryPieceOfState :=
  fun _ => ⟨_, rfl, rfl, Memory.read_nil, by decide, rfl, rfl, rfl, rfl, rfl, rfl⟩

/-- Settles O59: the outputs are the codes of the state's own fields. -/
theorem statusOutputsShowTheCodes : Obligations.StatusOutputsShowTheCodes := by
  refine fun s => ⟨s.statusOutputs, rfl, ?_, ?_, ?_⟩
  · cases h : s.status <;> simp [State.statusOutputs, Status.code, h]
  · cases h : s.fault.kind <;> simp [State.statusOutputs, FaultKind.code, h]
  · cases h : s.fault.op <;> simp [State.statusOutputs, FaultOp.code, h]

/-! ### The trace port (spec/60_exceptions.md R232) -/

theorem traceByte_in {s : State} {addr : Nat} (h : addr ≤ 255) : traceByte s addr = some (Memory.read s.mem addr) := if_pos h

theorem traceByte_out {s : State} {addr : Nat} (h : 255 < addr) : traceByte s addr = none := if_neg (by omega)

/-- Settles O58: the trace stands beside the step, and each of its bytes is in range or absent. -/
theorem tracePortIsObservationalOnly : Obligations.TracePortIsObservationalOnly :=
  fun _ _ _ => ⟨rfl, rfl, rfl, traceByte_in, traceByte_out, traceByte_in, traceByte_out, traceByte_in, traceByte_out⟩

/-! ### Memory as data (spec/20_memory.md R50, R57) -/

/-- Settles O10: by induction on the writes from the last one back, each read being decided by the last write. -/
theorem readGivesTheMostRecentWrite : Obligations.ReadGivesTheMostRecentWrite := by
  intro writes addr
  induction writes using List.reverseRecOn with
  | nil => rfl
  | append_singleton ws w ih =>
    rw [List.foldl_append, List.foldl_cons, List.foldl_nil, Memory.read_write, List.reverse_concat]
    by_cases h : addr = w.1
    · rw [if_pos h, List.find?_cons_of_pos (by simp [h])]
    · rw [if_neg h, List.find?_cons_of_neg (by simpa using Ne.symm h), ih]

theorem Memory.le_of_read_ne_zero {lo addr : Nat} {m : Memory} (hm : Memory.wfFrom lo m = true)
    (h : Memory.read m addr ≠ 0) : lo ≤ addr := by
  by_contra hlt
  exact h (Memory.read_below (by omega) hm)

/-- A canonical memory starts no higher than the first address at which one that reads alike lists a cell. -/
theorem Memory.head_le_of_read_eq {lo a b : Nat} {v w : Byte} {m m' : Memory} (hm : Memory.wfFrom lo ((a, v) :: m) = true)
    (hw : w ≠ 0) (h : ∀ addr, Memory.read ((a, v) :: m) addr = Memory.read ((b, w) :: m') addr) : a ≤ b := by
  obtain ⟨-, hcell⟩ := (Memory.wfFrom_cons ..).mp hm
  refine Memory.le_of_read_ne_zero ((Memory.wfFrom_cons ..).mpr ⟨le_refl a, hcell⟩) ?_
  rwa [h b, Memory.read_cons, if_pos rfl]

/-- A memory that reads 0 everywhere lists no cell, if it is canonical. -/
theorem Memory.eq_nil_of_read_eq_zero {lo : Nat} {m : Memory} (hm : Memory.wfFrom lo m = true)
    (h : ∀ addr, Memory.read m addr = 0) : m = [] := by
  cases m with
  | nil => rfl
  | cons c m =>
    obtain ⟨-, -, hv, -⟩ := (Memory.wfFrom_cons ..).mp hm
    have hread := h c.1
    rw [Memory.read_cons, if_pos rfl] at hread
    exact absurd hread hv

/-- Canonical memories that read alike list the same cells, from the lowest address up. -/
theorem Memory.eq_of_read_eq {lo : Nat} {m m' : Memory} (hm : Memory.wfFrom lo m = true) (hm' : Memory.wfFrom lo m' = true)
    (h : ∀ addr, Memory.read m addr = Memory.read m' addr) : m = m' := by
  induction m generalizing lo m' with
  | nil => exact (Memory.eq_nil_of_read_eq_zero hm' fun addr => (h addr).symm).symm
  | cons c m ih =>
    cases m' with
    | nil => exact Memory.eq_nil_of_read_eq_zero hm h
    | cons c' m' =>
      obtain ⟨a, v⟩ := c
      obtain ⟨a', v'⟩ := c'
      obtain ⟨-, -, hv, hrest⟩ := (Memory.wfFrom_cons ..).mp hm
      obtain ⟨-, -, hv', hrest'⟩ := (Memory.wfFrom_cons ..).mp hm'
      obtain rfl : a = a' :=
        le_antisymm (Memory.head_le_of_read_eq hm hv' h) (Memory.head_le_of_read_eq hm' hv fun addr => (h addr).symm)
      have hhead := h a
      rw [Memory.read_cons, Memory.read_cons, if_pos rfl, if_pos rfl] at hhead
      have htail : m = m' := by
        refine ih hrest hrest' fun addr => ?_
        by_cases haddr : addr = a
        · rw [haddr, Memory.read_below a.lt_succ_self hrest, Memory.read_below a.lt_succ_self hrest']
        · have hread := h addr
          rwa [Memory.read_cons, Memory.read_cons, if_neg haddr, if_neg haddr] at hread
      rw [hhead, htail]

/-- Past the address space a canonical memory lists no cell. -/
theorem Memory.read_of_ge {addr : Nat} (haddr : 256 ≤ addr) {lo : Nat} {m : Memory} (h : Memory.wfFrom lo m = true) :
    Memory.read m addr = 0 := by
  induction m generalizing lo with
  | nil => rfl
  | cons c m ih =>
    obtain ⟨-, hc, -, hm⟩ := (Memory.wfFrom_cons ..).mp h
    rw [Memory.read_cons, if_neg (by omega), ih hm]

/-- Settles O11: equality is by induction along both lists, and no cell is listed past the address space. -/
theorem canonicalMemoriesThatReadAlikeAreEqual : Obligations.CanonicalMemoriesThatReadAlikeAreEqual :=
  ⟨fun _ _ hm hm' h => Memory.eq_of_read_eq hm hm' h, fun _ _ hm haddr => Memory.read_of_ge haddr hm⟩

/-! ### The program file (spec/70_reset_and_hazards.md R247, R248) -/

/-- The digit of a bit in a program file; `binaryLine_eq` ties it to the lines of the model. -/
def bitChar (b : Bool) : Char := if b then '1' else '0'

/-- The `k` low bits of a number as digits, the highest first. -/
def bitChars (n : Nat) : Nat → List Char
  | 0 => []
  | k + 1 => bitChar (n.testBit k) :: bitChars n k

theorem binaryLine_eq (v : Byte) : binaryLine v = bitChars v.toNat 8 := rfl

theorem length_bitChars (n k : Nat) : (bitChars n k).length = k := by
  induction k with
  | zero => rfl
  | succ k ih => rw [bitChars, List.length_cons, ih]

theorem isWhitespace_bitChar (b : Bool) : (bitChar b).isWhitespace = false := by cases b <;> decide

theorem bitChar_ne_hash (b : Bool) : bitChar b ≠ '#' := by cases b <;> decide

/-- Every character of a digit string is the digit of some bit. -/
theorem exists_bit_of_mem_bitChars {n k : Nat} {c : Char} (h : c ∈ bitChars n k) : ∃ b, c = bitChar b := by
  induction k with
  | zero => cases h
  | succ k ih =>
    obtain rfl | h := List.mem_cons.mp h
    · exact ⟨_, rfl⟩
    · exact ih h

theorem dropWhile_of_forall_false {α : Type} {p : α → Bool} {l : List α} (h : ∀ x ∈ l, p x = false) : l.dropWhile p = l :=
  List.dropWhile_eq_self_iff.mpr fun _ => by simp [h _ (List.getElem_mem _)]

/-- A text without white space is its own trimmed form. -/
theorem trim_eq_self {l : List Char} (h : ∀ c ∈ l, c.isWhitespace = false) : trim l = l := by
  rw [trim, dropWhile_of_forall_false h, dropWhile_of_forall_false (fun c hc => h c (List.mem_reverse.mp hc)),
    List.reverse_reverse]

/-- A line of digits is its own token. -/
theorem lineToken_bitChars (n k : Nat) : lineToken (bitChars n k) = bitChars n k := by
  have hhash : (bitChars n k).takeWhile (fun c => c ≠ '#') = bitChars n k := by
    refine List.takeWhile_eq_self_iff.mpr fun c hc => ?_
    obtain ⟨b, rfl⟩ := exists_bit_of_mem_bitChars hc
    simpa using bitChar_ne_hash b
  rw [lineToken, hhash]
  refine trim_eq_self fun c hc => ?_
  obtain ⟨b, rfl⟩ := exists_bit_of_mem_bitChars hc
  exact isWhitespace_bitChar b

theorem binaryValue?_bitChar (acc : Nat) (b : Bool) (cs : List Char) :
    binaryValue? acc (bitChar b :: cs) = binaryValue? (2 * acc + b.toNat) cs := by
  cases b <;> rfl

theorem shiftRight_eq_two_mul_add_testBit (n k : Nat) : n >>> k = 2 * (n >>> (k + 1)) + (n.testBit k).toNat := by
  have hbit := Nat.bit_testBit_zero_shiftRight_one (n >>> k)
  rwa [Nat.testBit_shiftRight, Nat.add_zero, ← Nat.shiftRight_add, Nat.bit_val, eq_comm] at hbit

/-- Reading the `k` low digits on top of the higher part of a number gives the number. -/
theorem binaryValue?_bitChars (n k : Nat) : binaryValue? (n >>> k) (bitChars n k) = some n := by
  induction k with
  | zero => rfl
  | succ k ih => rw [bitChars, binaryValue?_bitChar, ← shiftRight_eq_two_mul_add_testBit, ih]

/-- A token of eight characters that has a binary value is that byte (R247). -/
theorem readFileLine_of_value {line : List Char} {n : Nat} (hlen : (lineToken line).length = 8)
    (hvalue : binaryValue? 0 (lineToken line) = some n) : readFileLine line = .byte (BitVec.ofNat 8 n) := by
  unfold readFileLine
  split
  · next hnil =>
    rw [hnil] at hlen
    cases hlen
  · rw [if_pos hlen, hvalue]

theorem readFileLine_binaryLine (v : Byte) : readFileLine (binaryLine v) = .byte v := by
  have htok : lineToken (binaryLine v) = bitChars v.toNat 8 := lineToken_bitChars v.toNat 8
  have hvalue : binaryValue? 0 (bitChars v.toNat 8) = some v.toNat := by
    rw [← binaryValue?_bitChars v.toNat 8, Nat.shiftRight_eq_zero _ _ (byte_lt v)]
  rw [readFileLine_of_value (n := v.toNat) (by rw [htok, length_bitChars]) (by rw [htok, hvalue]),
    BitVec.ofNat_toNat, BitVec.setWidth_eq]

/-- One line of digits for each byte loads as the bytes do. -/
theorem loadLines_binaryLine (n addr : Nat) (program : List Byte) (s : State) :
    loadLines n addr (program.map binaryLine) s = loadBytes addr program s := by
  induction program generalizing n addr s with
  | nil => rfl
  | cons v vs ih =>
    rw [List.map_cons, loadLines, readFileLine_binaryLine, loadBytes]
    exact congrArg (loadByteAt addr v s) (funext fun t => ih (n + 1) (addr + 1) t)

/-- With the engine stopped, a program that runs past memory aborts at address 256, and status stays as it was. -/
theorem loadBytes_out {s : State} (hs : s.status ≠ .running) {addr : Nat} (haddr : addr ≤ 256) {vs : List Byte}
    (h : 256 < addr + vs.length) : ∃ t, loadBytes addr vs s = (some (.outOfRange 256), t) ∧ t.status = s.status := by
  induction vs generalizing s addr with
  | nil => simp at h; omega
  | cons v vs ih =>
    rw [List.length_cons] at h
    by_cases hin : addr ≤ 255
    · obtain ⟨t, hload, ht⟩ := ih (s := { s with mem := Memory.write s.mem addr v }) (addr := addr + 1) hs (by omega) (by omega)
      exact ⟨t, (loadByteAt_in hs hin v _).trans hload, ht⟩
    · obtain rfl : addr = 256 := by omega
      exact ⟨s, loadByteAt_out hs (by decide) v _, rfl⟩

/-- Settles O57: the lines load as the bytes do, and the write of byte 257 aborts the load of the reset state, which is Idle. -/
theorem programFileLoadsItsBytes : Obligations.ProgramFileLoadsItsBytes := by
  refine ⟨fun program s => loadLines_binaryLine 1 0 program s, fun program s hlen => ?_⟩
  have hlong : 256 < 0 + program.length := by omega
  obtain ⟨t, hload, ht⟩ := loadBytes_out (s := State.reset) (by decide) (by decide) hlong
  refine ⟨t, ?_, ht⟩
  have hlines : loadLines 1 0 (program.map binaryLine) (hostOp .reset s).2 = (some (.outOfRange 256), t) :=
    (loadLines_binaryLine 1 0 program State.reset).trans hload
  rw [bootFile, hlines]
  rfl

end Sys2Proof.Machine

/-! ### What each instruction does, and its frame (spec/41 to spec/44) -/

namespace Sys2Proof.Machine

theorem sameRegsBut_of_regs_eq {l : List RegIx} {s t : State} (h : t.regs = s.regs) : sameRegsBut l s t := by
  intro i _
  rw [State.reg, State.reg, h]

theorem sameMemoryBut_of_mem_eq {l : List Nat} {s t : State} (h : t.mem = s.mem) : sameMemoryBut l s t := by
  intro addr _
  rw [h]

theorem sameMemoryBut_write {s t : State} {addr : Nat} {v : Byte} (h : t.mem = Memory.write s.mem addr v) :
    sameMemoryBut [addr] s t := by
  intro k hk
  rw [h, Memory.read_write_other _ _ (List.ne_of_not_mem_cons hk)]

/-- The value of a register once SP has been set. -/
theorem reg_setReg_sp (s : State) (v : Byte) (i : RegIx) : (s.setReg spIx v).reg i = if i = 7 then v else s.reg i := by
  split
  · next h => rw [h, State.reg_setReg_same]
  · next h => exact State.reg_setReg_other s v h

/-- The value of SP once a register has been set. -/
theorem sp_setReg (s : State) (v : Byte) (i : RegIx) : (s.setReg i v).sp = if i = 7 then v else s.sp := by
  split
  · next h => rw [h, State.sp_setReg_sp]
  · next h => exact State.sp_setReg_other s v h

/-- Settles O13: LDI is one register write. -/
theorem ldiWritesTheImmediate : Obligations.LdiWritesTheImmediate := fun s i v =>
  ⟨_, execLdi_in s i v, State.reg_setReg_same s i v, rfl, sameRegsBut_setReg s i v, sameMemoryBut_of_mem_eq rfl, rfl, rfl,
    rfl, rfl⟩

/-- Settles O14: PRN is one append to the output. -/
theorem prnEmitsTheRegister : Obligations.PrnEmitsTheRegister := fun s i =>
  ⟨_, execPrn_in s i, rfl, rfl, sameRegsBut_of_regs_eq rfl, sameMemoryBut_of_mem_eq rfl, rfl, rfl, rfl⟩

/-- Settles O15: HLT is one change of status. -/
theorem hltHaltsOnePastItself : Obligations.HltHaltsOnePastItself := fun s =>
  ⟨_, execHlt_eq s, rfl, rfl, sameRegsBut_of_regs_eq rfl, sameMemoryBut_of_mem_eq rfl, rfl, rfl, rfl⟩

/-- Settles O16: MUL writes the ALU's product, which is exact modulo 256. -/
theorem mulWritesTheProductModulo256 : Obligations.MulWritesTheProductModulo256 := by
  refine fun s i j => ⟨_, execMul_in s i j, ?_, rfl, sameRegsBut_setReg s i _, sameMemoryBut_of_mem_eq rfl, rfl, rfl, rfl, rfl⟩
  rw [State.advancePc_reg, State.reg_setReg_same, toNat_aluMul]

/-- Settles O17: ADD writes the ALU's sum, which is exact modulo 256. -/
theorem addWritesTheSumModulo256 : Obligations.AddWritesTheSumModulo256 := by
  refine fun s i j => ⟨_, execAdd_in s i j, ?_, rfl, sameRegsBut_setReg s i _, sameMemoryBut_of_mem_eq rfl, rfl, rfl, rfl, rfl⟩
  rw [State.advancePc_reg, State.reg_setReg_same, toNat_aluAdd]

/-- Settles O18: CMP writes to FL the flag of the order of its operands. -/
theorem cmpSetsOneFlag : Obligations.CmpSetsOneFlag := fun s i j =>
  ⟨_, execCmp_in s i j, compareFlags_of_eq, compareFlags_of_gt, compareFlags_of_lt, rfl, sameRegsBut_of_regs_eq rfl,
    sameMemoryBut_of_mem_eq rfl, rfl, rfl, rfl⟩

/-- Settles O19: PUSH sets SP, then stores the register read after it, one byte. -/
theorem pushStoresBelowTheStackPointer : Obligations.PushStoresBelowTheStackPointer := by
  refine fun s i hsp => ⟨_, execPush_in i hsp, ?_, ?_, rfl, sameRegsBut_setReg s 7 _, sameMemoryBut_write rfl, rfl, rfl, rfl, rfl⟩
  · exact State.sp_setReg_sp s _
  · exact (Memory.read_write_same s.mem _ _).trans (reg_setReg_sp s _ i)

/-- Settles O20: POP writes the register, then increments the SP this left. -/
theorem popLoadsFromTheStackPointer : Obligations.PopLoadsFromTheStackPointer := by
  intro s i hsp
  have hleft := sp_setReg s (s.loadByte s.sp) i
  refine ⟨_, execPop_in i (by rwa [hleft]), fun hi => ⟨?_, ?_⟩, fun hi => ?_, rfl, fun j hj => ?_, sameMemoryBut_of_mem_eq rfl,
    rfl, rfl, rfl, rfl⟩
  · rw [State.advancePc_reg, State.reg_setReg_other _ _ hi, State.reg_setReg_same]
    rfl
  · rw [State.advancePc_sp, State.sp_setReg_sp, hleft, if_neg hi]
  · rw [State.advancePc_sp, State.sp_setReg_sp, hleft, if_pos hi]
    rfl
  · simp only [List.mem_cons, List.not_mem_nil, or_false, not_or] at hj
    rw [State.advancePc_reg, State.reg_setReg_other _ _ hj.2, State.reg_setReg_other _ _ hj.1]

/-- A number up to 255 is the value of its byte. -/
theorem toNat_byte_ofNat {n : Nat} (h : n ≤ 255) : (BitVec.ofNat 8 n).toNat = n := by
  rw [BitVec.toNat_ofNat]
  omega

/-- Settles O21: CALL sets SP, stores the return address below it and jumps to the register read after it. -/
theorem callPushesTheReturnAddress : Obligations.CallPushesTheReturnAddress := by
  refine fun s i hsp hpc => ⟨_, execCall_in i hsp hpc, ?_, ?_, ?_, sameRegsBut_setReg s 7 _, sameMemoryBut_write rfl, rfl, rfl,
    rfl, rfl⟩
  · exact State.sp_setReg_sp s _
  · rw [State.jumpTo_mem, State.storeByte_mem, Memory.read_write_same, toNat_byte_ofNat hpc]
  · rw [State.jumpTo_toNat, reg_setReg_sp]

/-- Settles O22: RET jumps to the byte at SP and increments SP. -/
theorem retPopsTheReturnAddress : Obligations.RetPopsTheReturnAddress := fun s hsp =>
  ⟨_, execRet_in hsp, State.jumpTo_toNat _ _, State.sp_setReg_sp s _, sameRegsBut_setReg s 7 _, sameMemoryBut_of_mem_eq rfl, rfl,
    rfl, rfl, rfl⟩

/-- An instruction that jumps goes to the byte and leaves every other part of the state. -/
theorem exec_jumpTo_frame {ins : Instr} {s : State} {v : Byte} (h : Completes s ins (s.jumpTo v)) :
    ∃ t, exec ins s = .next t ∧ t.pc.toNat = v.toNat ∧
      sameRegsBut [] s t ∧ sameMemoryBut [] s t ∧ t.fl = s.fl ∧ t.out = s.out ∧ sameStatus s t :=
  ⟨_, h.exec_eq, State.jumpTo_toNat s v, sameRegsBut_of_regs_eq rfl, sameMemoryBut_of_mem_eq rfl, rfl, rfl, rfl, rfl⟩

/-- A jump not taken advances pc and leaves every other part of the state. -/
theorem exec_advancePc_frame {ins : Instr} {s : State} {n : Nat} (h : Completes s ins (s.advancePc n)) :
    ∃ t, exec ins s = .next t ∧ t.pc = s.pc + BitVec.ofNat 9 n ∧
      sameRegsBut [] s t ∧ sameMemoryBut [] s t ∧ t.fl = s.fl ∧ t.out = s.out ∧ sameStatus s t :=
  ⟨_, h.exec_eq, rfl, sameRegsBut_of_regs_eq rfl, sameMemoryBut_of_mem_eq rfl, rfl, rfl, rfl, rfl⟩

/-- Settles O23: JMP is a jump. -/
theorem jmpGoesToTheRegister : Obligations.JmpGoesToTheRegister := fun _ i => exec_jumpTo_frame (.jmp i)

/-- Settles O24: JEQ is a jump when E is set, else an advance. -/
theorem jeqJumpsWhenEqualIsSet : Obligations.JeqJumpsWhenEqualIsSet :=
  ⟨fun _ i hE => exec_jumpTo_frame (.jeqTaken i hE), fun _ a hE => exec_advancePc_frame (.jeqNotTaken a hE)⟩

/-- Settles O25: JNE is a jump when E is clear, else an advance. -/
theorem jneJumpsWhenEqualIsClear : Obligations.JneJumpsWhenEqualIsClear :=
  ⟨fun _ i hE => exec_jumpTo_frame (.jneTaken i hE), fun _ a hE => exec_advancePc_frame (.jneNotTaken a hE)⟩

/-- Settles O8: SP is `reg 7` by definition, and LDI and PRN of register 7 write and read it. -/
theorem stackPointerIsRegisterSeven : Obligations.StackPointerIsRegisterSeven := by
  refine ⟨State.sp_eq_reg, State.sp_setReg_sp, fun s v => ?_, fun s => ?_, State.reset_sp⟩
  · obtain ⟨t, hexec, hreg, -⟩ := ldiWritesTheImmediate s 7 v
    exact ⟨t, hexec, hreg⟩
  · obtain ⟨t, hexec, hout, -⟩ := prnEmitsTheRegister s 7
    exact ⟨t, hexec, hout⟩

/-! ### Faults of the instructions (spec/60_exceptions.md R212, R216) -/

theorem withReadOperand_faultsWith {s : State} {a : Byte} {k : RegIx → Result} (h : 8 ≤ a.toNat) :
    FaultsWith s (withReadOperand s a k) .outOfRange .registerRead a.toNat := by
  rw [withReadOperand, withRegister_ge h]
  exact faultsWith_raise s .registerRead _

theorem withWriteOperand_faultsWith {s : State} {a : Byte} {k : RegIx → Result} (h : 8 ≤ a.toNat) :
    FaultsWith s (withWriteOperand s a k) .outOfRange .registerWrite a.toNat := by
  rw [withWriteOperand, withRegister_ge h]
  exact faultsWith_raise s .registerWrite _

/-- A second operand above 7 is reported when the first names a register. -/
theorem twoReads_faultsWith {s : State} {a b : Byte} {k : RegIx → RegIx → Result} (ha : a.toNat < 8) (hb : 8 ≤ b.toNat) :
    FaultsWith s (withReadOperand s a fun i => withReadOperand s b fun j => k i j) .outOfRange .registerRead b.toNat := by
  rw [← regByte_of_lt ha, withReadOperand_regByte]
  exact withReadOperand_faultsWith hb

/-- Settles O26: the register check is the first thing each of these instructions does. -/
theorem registerIndexAboveSevenFaults : Obligations.RegisterIndexAboveSevenFaults := by
  intro s a b
  simp only [List.forall_mem_cons, List.not_mem_nil, false_imp_iff, implies_true, and_true]
  refine ⟨fun ha => ⟨?_, ?_, fun hE => ?_, fun hE => ?_⟩, fun ha hb => ?_⟩
  · have h {k : RegIx → Result} := withReadOperand_faultsWith (s := s) (k := k) ha
    exact ⟨h, h, h, h, h, h, h⟩
  · exact ⟨withWriteOperand_faultsWith ha, withWriteOperand_faultsWith ha⟩
  · rw [exec, execJeq_taken hE]
    exact withReadOperand_faultsWith ha
  · rw [exec, execJne_taken hE]
    exact withReadOperand_faultsWith ha
  · have h {k : RegIx → RegIx → Result} := twoReads_faultsWith (s := s) (k := k) ha hb
    exact ⟨h, h, h⟩

theorem decrementSp_faultsWith {s : State} {k : State → Result} (h : s.sp = 0) :
    FaultsWith s (decrementSp s k) .outOfRange .stackAdjust (-1) := by
  rw [decrementSp_out h]
  exact faultsWith_raise s .stackAdjust _

theorem incrementSp_faultsWith {s w : State} {k : State → Result} (h : w.sp = 255) :
    FaultsWith s (incrementSp s w k) .outOfRange .stackAdjust 256 := by
  rw [incrementSp_out h]
  exact faultsWith_raise s .stackAdjust _

/-- Settles O27: on a register that exists the adjustment of SP comes next, in POP from the SP its load left. -/
theorem stackAdjustmentOutOfRangeFaults : Obligations.StackAdjustmentOutOfRangeFaults := by
  refine fun s i => ⟨fun hsp => ⟨?_, ?_⟩, fun hsp => ?_, fun hsp => ?_⟩
  · rw [exec, execPush, withReadOperand_regByte]
    exact decrementSp_faultsWith hsp
  · rw [exec, execCall, withReadOperand_regByte]
    exact decrementSp_faultsWith hsp
  · rw [exec, execRet]
    exact incrementSp_faultsWith hsp
  · rw [exec, execPop, withWriteOperand_regByte]
    exact incrementSp_faultsWith ((sp_setReg s _ i).trans hsp)

/-- Settles O28: with the register and SP in order, the return address is checked. -/
theorem returnAddressAbove255Faults : Obligations.ReturnAddressAbove255Faults := by
  intro s i hsp hpc
  rw [exec, execCall, withReadOperand_regByte, decrementSp_in hsp, withReturnAddress_out hpc]
  exact faultsWith_raise s .returnAddress _

/-! ### What an instruction may write (spec/10_state.md R22, R32, spec/20_memory.md R51) -/

/-- What an instruction changes, it changes by completing: fault entry leaves it. -/
theorem completes_of_change {α : Type} {f : State → α} (hf : ∀ (s : State) op v, f (s.enterFaulted op v) = f s) {i : Instr}
    {s t : State} (h : exec i s = .next t) (hne : f t ≠ f s) : Completes s i t := by
  obtain hc | ⟨op, v, -, rfl⟩ := exec_next_inv h
  · exact hc
  · exact absurd (hf s op v) hne

/-- Settles O43: a completed instruction leaves memory or wrote the one byte below SP. -/
theorem memoryIsWrittenByPushAndCallOnly : Obligations.MemoryIsWrittenByPushAndCallOnly := by
  intro i s t addr h hne
  have hc := completes_of_change (f := fun s => Memory.read s.mem addr) (fun _ _ _ => rfl) h hne
  obtain hmem | ⟨hop, hsp, v, hmem⟩ := hc.mem_cases
  · exact absurd (congrArg (Memory.read · addr) hmem) hne
  · refine ⟨hop, hsp, ?_⟩
    by_contra haddr
    exact hne (by rw [hmem, Memory.read_write_other _ v haddr])

/-- A register that a write changes is the one written. -/
theorem eq_of_reg_setReg_ne {s : State} {i r : RegIx} {v : Byte} (h : (s.setReg i v).reg r ≠ s.reg r) : r = i := by
  by_contra hr
  exact h (State.reg_setReg_other s v hr)

/-- A register that a completed instruction changes is one its row of the table writes. -/
theorem Completes.mayWrite {i : Instr} {s t : State} {r : RegIx} (h : Completes s i t) (hne : t.reg r ≠ s.reg r) :
    mayWrite i r := by
  have hbyte {j : RegIx} {v : Byte} (hj : (s.setReg j v).reg r ≠ s.reg r) : (regByte j).toNat = r.val := by
    rw [regByte_toNat, eq_of_reg_setReg_ne hj]
  cases h with
  | prn | hlt | cmp | jmp | jeqTaken | jeqNotTaken | jneTaken | jneNotTaken => exact absurd rfl hne
  | ldi | mul | add => exact hbyte hne
  | push | call | ret => exact eq_of_reg_setReg_ne hne
  | pop j =>
    by_cases h7 : r = 7
    · exact .inr h7
    · rw [State.advancePc_reg, State.reg_setReg_other _ _ h7] at hne
      exact .inl (hbyte hne)

/-- Settles O44: a changed register was changed by a completed instruction, which its row lists as written. -/
theorem registersAreWrittenAsTabled : Obligations.RegistersAreWrittenAsTabled := fun _ _ _ r h hne =>
  (completes_of_change (f := fun s => s.reg r) (fun _ _ _ => rfl) h hne).mayWrite hne

/-! ### Another value of pc (spec/10_state.md R25) -/

/-- `SamePcAside r r'`: two next states that agree on registers, memory, FL, output and status. -/
def SamePcAside (r r' : Result) : Prop :=
  ∃ t u, r = .next t ∧ r' = .next u ∧ u.regs = t.regs ∧ u.mem = t.mem ∧ u.fl = t.fl ∧ u.out = t.out ∧ u.status = t.status

section ChangeOfPc
variable {s : State} {p : Pc}

theorem raise_pc (op : FaultOp) (v : Int) : SamePcAside (raise s op v) (raise { s with pc := p } op v) :=
  ⟨_, _, rfl, rfl, rfl, rfl, rfl, rfl, rfl⟩

theorem withRegister_pc {op : FaultOp} {a : Byte} {k k' : RegIx → Result} (hk : ∀ i, SamePcAside (k i) (k' i)) :
    SamePcAside (withRegister s op a k) (withRegister { s with pc := p } op a k') := by
  rw [withRegister_eq, withRegister_eq]
  split
  · exact hk _
  · exact raise_pc _ _

theorem decrementSp_pc {k k' : State → Result} (hk : ∀ w, SamePcAside (k w) (k' { w with pc := p })) :
    SamePcAside (decrementSp s k) (decrementSp { s with pc := p } k') := by
  by_cases h : s.sp = 0
  · rw [decrementSp_out h, decrementSp_out (s := { s with pc := p }) h]
    exact raise_pc _ _
  · rw [decrementSp_in h, decrementSp_in (s := { s with pc := p }) h]
    exact hk _

theorem incrementSp_pc {w : State} {k k' : State → Result} (hk : ∀ w, SamePcAside (k w) (k' { w with pc := p })) :
    SamePcAside (incrementSp s w k) (incrementSp { s with pc := p } { w with pc := p } k') := by
  by_cases h : w.sp = 255
  · rw [incrementSp_out h, incrementSp_out (w := { w with pc := p }) h]
    exact raise_pc _ _
  · rw [incrementSp_in h, incrementSp_in (w := { w with pc := p }) h]
    exact hk _

theorem next_pc {t u : State} (h : { u with pc := t.pc } = t) : SamePcAside (.next t) (.next u) := by
  rw [← h]
  exact ⟨_, _, rfl, rfl, rfl, rfl, rfl, rfl, rfl⟩

theorem execRet_pc : SamePcAside (execRet s) (execRet { s with pc := p }) := by
  rw [execRet, execRet]
  exact incrementSp_pc (w := s) fun _ => next_pc rfl

/-- No instruction but CALL hands pc to anything but pc: each check and each write before the end is the same. -/
theorem exec_pc {i : Instr} (hi : i.opcode ≠ .call) : SamePcAside (exec i s) (exec i { s with pc := p }) := by
  cases i with
  | ldi a b => exact withRegister_pc fun _ => next_pc rfl
  | prn a => exact withRegister_pc fun _ => next_pc rfl
  | hlt => exact next_pc rfl
  | mul a b => exact withRegister_pc fun _ => withRegister_pc fun _ => next_pc rfl
  | add a b => exact withRegister_pc fun _ => withRegister_pc fun _ => next_pc rfl
  | cmp a b => exact withRegister_pc fun _ => withRegister_pc fun _ => next_pc rfl
  | push a => exact withRegister_pc fun _ => decrementSp_pc fun _ => next_pc rfl
  | pop a => exact withRegister_pc fun _ => incrementSp_pc (w := s.setReg _ _) fun _ => next_pc rfl
  | call a => exact absurd rfl hi
  | ret => exact execRet_pc
  | jmp a => exact withRegister_pc fun _ => next_pc rfl
  | jeq a =>
    cases hE : flagE s.fl with
    | true =>
      rw [exec, execJeq_taken hE, exec, execJeq_taken (s := { s with pc := p }) hE]
      exact withRegister_pc fun _ => next_pc rfl
    | false =>
      rw [exec, execJeq_notTaken hE, exec, execJeq_notTaken (s := { s with pc := p }) hE]
      exact next_pc rfl
  | jne a =>
    cases hE : flagE s.fl with
    | true =>
      rw [exec, execJne_notTaken hE, exec, execJne_notTaken (s := { s with pc := p }) hE]
      exact next_pc rfl
    | false =>
      rw [exec, execJne_taken hE, exec, execJne_taken (s := { s with pc := p }) hE]
      exact withRegister_pc fun _ => next_pc rfl

end ChangeOfPc

/-- Settles O45: the two runs go through the same checks to states that agree but for pc. -/
theorem programCounterIsReadByCallOnly : Obligations.ProgramCounterIsReadByCallOnly := by
  intro i s t p hi h
  obtain ⟨t', u, ht, hu, hsame⟩ := exec_pc (s := s) (p := p) hi
  obtain rfl : t = t' := Host.Outcome.next.inj (h.symm.trans ht)
  exact ⟨u, hu, hsame⟩

/-! ### Sequences (spec/43_stack.md, spec/44_control.md) -/

theorem byte_sub_one_ne_255 {v : Byte} (h : v ≠ 0) : v - 1 ≠ 255 := by
  intro e
  have h255 := byte_eq_255.mp e
  rw [byte_sub_one_toNat h] at h255
  have hlt := byte_lt v
  omega

/-- Settles O46: POP reads back the byte PUSH stored and undoes its decrement. -/
theorem pushThenPopRestores : Obligations.PushThenPopRestores := by
  intro s i hsp
  obtain ⟨t, hpush, htsp, htmem, -, htregs, -, -, -, htstatus, -⟩ := pushStoresBelowTheStackPointer s i hsp
  rw [← htsp] at htmem
  have hincremented : (if i = 7 then Memory.read t.mem t.sp.toNat else t.sp) = s.sp - 1 := by
    split
    · next h7 => rw [htmem, if_pos h7, htsp]
    · exact htsp
  obtain ⟨u, hpop, hother, hsame, -, huregs, humem, -, -, hustatus, -⟩ :=
    popLoadsFromTheStackPointer t i (by rw [hincremented]; exact byte_sub_one_ne_255 hsp)
  have husp : u.sp = s.sp := by
    by_cases h7 : i = 7
    · rw [if_pos h7] at hincremented
      rw [hsame h7, hincremented, BitVec.sub_add_cancel]
    · rw [(hother h7).2, htsp, BitVec.sub_add_cancel]
  refine ⟨t, u, hpush, hpop, State.regs_ext fun j => ?_, husp, hustatus.trans htstatus, ?_⟩
  · by_cases hj7 : j = 7
    · rw [hj7]
      exact husp
    · by_cases hji : j = i
      · rw [hji] at hj7 ⊢
        rw [(hother hj7).1, htmem, if_neg hj7]
      · rw [huregs j (by simp [hji, hj7]), htregs j (by simp [hj7])]
  · rw [← byte_sub_one_toNat hsp, ← htsp, humem _ (List.not_mem_nil), htmem, htsp]

/-- Settles O47: RET reads the return address CALL stored and undoes its decrement. -/
theorem callThenRetRestores : Obligations.CallThenRetRestores := by
  intro s i hsp hpc
  obtain ⟨t, hcall, htsp, hret, -⟩ := callPushesTheReturnAddress s i hsp (by omega)
  refine ⟨t, hcall, fun w hwsp hwmem => ?_⟩
  have hne : w.sp ≠ 255 := by
    rw [hwsp, htsp]
    exact byte_sub_one_ne_255 hsp
  obtain ⟨u, hexec, hupc, husp, -⟩ := retPopsTheReturnAddress w hne
  refine ⟨u, hexec, ?_, ?_⟩
  · rw [hupc, hwmem, htsp, hret]
  · rw [husp, hwsp, htsp, BitVec.sub_add_cancel]

end Sys2Proof.Machine

/-! ### The instruction of a format (spec/30_encoding.md R77) -/

namespace Sys2Proof

/-- The instruction a format gives with the operand bytes `a` and `b`, of which it takes as many as it has. -/
def Form.instr : Form → Byte → Byte → Instr
  | .f0 i, _, _ => i
  | .f1 mk, a, _ => mk a
  | .f2 mk, a, b => mk a b

theorem opcode_instr_form (op : Opcode) (a b : Byte) : (op.form.instr a b).opcode = op := by cases op <;> rfl

theorem operandBytes_instr_form (op : Opcode) (a b : Byte) :
    (op.form.instr a b).operandBytes = [a, b].take op.operandCount := by cases op <;> rfl

end Sys2Proof

/-! ### The step (spec/40_cycle.md R100 to R110) -/

namespace Sys2Proof.Machine

/-- Settles O36: the cycle has no step outside Running. -/
theorem noStepUnlessRunning : Obligations.NoStepUnlessRunning := fun _ _ h => stepWith_notRunning h

/-- Settles O29: the opcode fetch is the first thing a step does. -/
theorem opcodeFetchAbove255Faults : Obligations.OpcodeFetchAbove255Faults := by
  intro c s hrun hpc
  rw [stepWith_running hrun, engineStep]
  exact readChecked_faultsWith hpc

/-- A Running step whose opcode byte is in range and unknown is that of the policy (R102). -/
theorem stepWith_of_unknown {c : LegalConfig} {s : State} (hrun : s.status = .running) (hpc : s.pc.toNat ≤ 255)
    (hunknown : ∀ op : Opcode, c.val.opcodes.byte op ≠ Memory.read s.mem s.pc.toNat) :
    stepWith c s = runUnknown c.val.policy (Memory.read s.mem s.pc.toNat) s := by
  rw [stepWith_running hrun, engineStep, readChecked_in hpc, opcodeOf?_eq_none_iff.mpr hunknown]

/-- Settles O31: under policy fault an unknown byte raises. -/
theorem unknownOpcodeFaultsUnderPolicyFault : Obligations.UnknownOpcodeFaultsUnderPolicyFault := by
  intro c s hpolicy hrun hpc hunknown
  rw [stepWith_of_unknown hrun hpc hunknown, hpolicy]
  exact faultsWith_raise s .decode _

/-- Settles O32: under policy skip an unknown byte is at most a pc advance, which no byte of memory can make pass 9 bits. -/
theorem unknownOpcodeIsSkippedUnderPolicySkip : Obligations.UnknownOpcodeIsSkippedUnderPolicySkip := by
  intro c s hpolicy hrun hpc hunknown
  have haa := aaField_le (Memory.read s.mem s.pc.toNat)
  rw [stepWith_of_unknown hrun hpc hunknown, hpolicy]
  cases hc : cField (Memory.read s.mem s.pc.toNat) with
  | true => exact ⟨s, by rw [runUnknown, hc]; rfl, rfl, nofun, fun _ => rfl⟩
  | false =>
    refine ⟨s.advancePc (1 + aaField (Memory.read s.mem s.pc.toNat)), by rw [runUnknown, hc]; rfl, rfl, fun _ => ?_, nofun⟩
    rw [State.advancePc_toNat s (by omega), Nat.add_assoc]

/-- A state that steps to itself is where every run from it is. -/
theorem runWith_of_fixed {c : LegalConfig} {s : State} (h : stepWith c s = .next s) (k : Nat) : runWith c k s = .next s := by
  induction k with
  | zero => rfl
  | succ k ih =>
    rw [runWith, h]
    exact ih

/-- Settles O33: the skip leaves pc, so the state steps to itself. -/
theorem skippedPcSettingByteHangs : Obligations.SkippedPcSettingByteHangs := by
  intro c s hpolicy hrun hpc hunknown hc
  have hfixed : stepWith c s = .next s := by
    rw [stepWith_of_unknown hrun hpc hunknown, hpolicy, runUnknown, if_pos hc]
  have hall := runWith_of_fixed hfixed
  refine ⟨hall, fun k => ⟨s, hall k, hrun⟩, ?_⟩
  rintro ⟨t, k, hk, ht⟩
  obtain rfl : s = t := Host.Outcome.next.inj ((hall k).symm.trans hk)
  rw [hrun] at ht
  cases ht

/-- Operand bytes that complete a format are fetched in range, and the instruction they complete is run. -/
theorem fetchOperandsAndRun_of_complete {s : State} {f : Form} {n : Nat} {i : Instr} {rest : List Byte}
    (hn : s.pc.toNat + n ≤ 255)
    (h : completeForm f ((List.range' (s.pc.toNat + 1) n).map (Memory.read s.mem)) = .ok (i, rest)) :
    fetchOperandsAndRun s f = exec i s := by
  cases f with
  | f0 j =>
    cases h
    rfl
  | f1 mk =>
    match n, h with
    | n + 1, h =>
      cases h
      rw [fetchOperandsAndRun, readChecked_in (by omega)]
  | f2 mk =>
    match n, h with
    | n + 2, h =>
      cases h
      rw [fetchOperandsAndRun, readChecked_in (by omega), readChecked_in (by omega)]

/-- The bytes from an address of memory on start with the byte there. -/
theorem bytesFromPc_eq_cons {s : State} (hpc : s.pc.toNat ≤ 255) : bytesFromPc s =
    Memory.read s.mem s.pc.toNat :: (List.range' (s.pc.toNat + 1) (255 - s.pc.toNat)).map (Memory.read s.mem) := by
  have hlen : 256 - s.pc.toNat = (255 - s.pc.toNat) + 1 := by omega
  rw [bytesFromPc, hlen, List.range'_succ, List.map_cons]

/-- Settles O37: the decoder and the cycle look up the same byte and complete the same format. -/
theorem stepRunsTheDecodedInstruction : Obligations.StepRunsTheDecodedInstruction := by
  refine ⟨fun c s i rest hrun hdecode => ?_, fun s => rfl⟩
  by_cases hpc : s.pc.toNat ≤ 255
  · rw [bytesFromPc_eq_cons hpc] at hdecode
    rw [stepWith_running hrun, engineStep, readChecked_in hpc]
    cases hop : opcodeOf? c.val.opcodes (Memory.read s.mem s.pc.toNat) with
    | none =>
      rw [decode_cons_none hop] at hdecode
      cases hdecode
    | some op =>
      rw [decode_cons_some hop] at hdecode
      exact fetchOperandsAndRun_of_complete (by omega) hdecode
  · have hnone : 256 - s.pc.toNat = 0 := by omega
    rw [bytesFromPc, hnone] at hdecode
    cases hdecode

/-- Settles O38: a skip advances by the byte's own fields; an instruction that does not set pc advances by its format, which these
fields give; and a pc past memory is the fault of the next fetch. -/
theorem defaultPcAdvance : Obligations.DefaultPcAdvance := by
  intro c s t h ht hc
  have hadvance : t.pc.toNat = s.pc.toNat + (1 + aaField (Memory.read s.mem s.pc.toNat)) := by
    obtain ⟨hrun, ⟨op, v, -, rfl⟩ | hskip | ⟨i, hi, hcompletes⟩⟩ := stepWith_next_inv h
    · exact absurd (State.enterFaulted_status s op v) ht
    · have hpc := hskip.inRange
      have haa := aaField_le (Memory.read s.mem s.pc.toNat)
      rw [hskip.next_eq, hc, if_neg Bool.false_ne_true, State.advancePc_toNat s (by omega)]
    · have hpc := hi.inRange
      rw [← hi.opcode, cField_byte c.property] at hc
      obtain e | ⟨hset, -⟩ := hcompletes.pc_cases
      · rw [e, State.advancePc_toNat s (by omega), ← hi.opcode, aaField_byte c.property]
      · rw [hc] at hset
        cases hset
  refine ⟨hadvance, fun op hop => ?_, fun hout hrun => opcodeFetchAbove255Faults c t hrun hout⟩
  rw [hop, aaField_byte c.property] at hadvance
  refine ⟨?_, ?_, ?_⟩
  · rintro rfl
    exact hadvance
  · rintro (rfl | rfl | rfl) <;> exact hadvance
  · rintro (rfl | rfl | rfl | rfl) <;> exact hadvance

/-- A completed instruction other than PRN leaves the output stream. -/
theorem Completes.out_eq {i : Instr} {s t : State} (h : Completes s i t) (hi : i.opcode ≠ .prn) : t.out = s.out := by
  cases h with
  | prn => exact absurd rfl hi
  | _ => rfl

/-- A PRN that a step fetched and completed appends the register its own operand byte names. -/
theorem Completes.out_of_prn {c : LegalConfig} {i : Instr} {s t : State} (h : Completes s i t) (hfetch : FetchedAt c s i)
    (hi : i.opcode = .prn) :
    ∃ j : RegIx, Memory.read s.mem (s.pc.toNat + 1) = regByte j ∧ t.out = s.out ++ [s.reg j] := by
  cases h with
  | prn j => exact ⟨j, (List.cons.inj hfetch.operands).1.symm, rfl⟩
  | _ => cases hi

/-- Settles O42: a fault and a skip leave the stream, and of the completed instructions PRN alone appends to it. -/
theorem outputGrowsByPrnOnly : Obligations.OutputGrowsByPrnOnly := by
  intro c s t h
  obtain ⟨hrun, ⟨op, v, -, rfl⟩ | hskip | ⟨i, hi, hc⟩⟩ := stepWith_next_inv h
  · exact ⟨fun ht => absurd (State.enterFaulted_status s op v) ht, fun _ => rfl⟩
  · refine ⟨fun _ hprn => absurd hprn.symm (hskip.unknown .prn), fun _ => ?_⟩
    rw [hskip.next_eq]
    split <;> rfl
  · refine ⟨fun _ hprn => hc.out_of_prn hi (byte_injective c.property (hi.opcode.trans hprn)), fun hcase => hc.out_eq ?_⟩
    intro hop
    obtain ht | hne := hcase
    · exact hc.status_ne_faulted hrun ht
    · exact hne (by rw [← hi.opcode, hop])

/-- Settles O48: the operand is fetched before the instruction runs, which is then PUSH as anywhere. -/
theorem pushOverItsOwnOperandUsesTheFetchedOperand : Obligations.PushOverItsOwnOperandUsesTheFetchedOperand := by
  intro c s i hrun hop hoperand hover
  have hlt := byte_lt s.sp
  have hsp : s.sp ≠ 0 := fun e => by
    have h0 := byte_eq_zero.mp e
    omega
  have hbelow : (s.sp - 1).toNat = s.pc.toNat + 1 := by
    rw [byte_sub_one_toNat hsp]
    omega
  have hstep : stepWith c s = exec (.push (regByte i)) s := by
    rw [stepWith_of_known hrun (by omega) hop, Opcode.form, fetchOperandsAndRun, readChecked_in (by omega), hoperand]
  obtain ⟨t, hexec, htsp, htmem, htpc, -⟩ := pushStoresBelowTheStackPointer s i hsp
  exact ⟨t, hstep.trans hexec, htpc, by rw [htsp, hbelow], by rw [← hbelow, htmem]⟩

/-! ### The first fault (spec/60_exceptions.md R212, R213, R216) -/

/-- `Reports s r l`: the answer `r` of a step from `s` is what the list of causes `l` says, the fault of the first cause that
applies or, if none does, a next state that is not Faulted. `Reports.firstCause` states this through `find?`, as `firstFault`
does. -/
inductive Reports (s : State) (r : Result) : List Cause → Prop where
  | done {t : State} {l : List Cause} (hr : r = .next t) (ht : t.status ≠ .faulted) (hl : (l.all fun x => !x.1) = true) :
    Reports s r l
  | fault {op : FaultOp} {v : Int} {l : List Cause} (h : FaultsWith s r op.kind op v) : Reports s r ((true, op, v) :: l)
  | skip {x : FaultOp × Int} {l : List Cause} (h : Reports s r l) : Reports s r ((false, x) :: l)

theorem Reports.firstCause {s : State} {r : Result} {l : List Cause} (h : Reports s r l) :
    match (l.find? (fun x => x.1)).map (fun x => x.2) with
    | some (op, value) => FaultsWith s r op.kind op value
    | none => ∃ t, r = .next t ∧ t.status ≠ .faulted := by
  induction h with
  | done hr ht hl =>
    rw [List.find?_eq_none.mpr (by simpa using hl)]
    exact ⟨_, hr, ht⟩
  | fault h => exact h
  | skip _ ih => exact ih

section Reports
variable {s : State} {l : List Cause}

/-- A check that raises when its cause applies reports that cause, and else what the rest reports. -/
theorem Reports.check {p : Prop} [Decidable p] {r : Result} {op : FaultOp} {v : Int} (hf : p → r = raise s op v)
    (hc : ¬ p → Reports s r l) : Reports s r ((decide p, op, v) :: l) := by
  by_cases hp : p
  · rw [decide_eq_true hp, hf hp]
    exact .fault (faultsWith_raise s op v)
  · rw [decide_eq_false hp]
    exact .skip (hc hp)

theorem reports_readChecked {op : FaultOp} {addr : Nat} {v : Int} {k : Byte → Result} (hv : v = addr)
    (hk : addr ≤ 255 → Reports s (k (Memory.read s.mem addr)) l) :
    Reports s (readChecked s op addr k) ((decide (255 < addr), op, v) :: l) := by
  refine .check (fun h => ?_) fun h => ?_
  · rw [readChecked_out h, hv]
  · rw [readChecked_in (by omega)]
    exact hk (by omega)

theorem reports_withRegister {op : FaultOp} {a : Byte} {k : RegIx → Result}
    (hk : ∀ h : a.toNat < 8, Reports s (k ⟨a.toNat, h⟩) l) :
    Reports s (withRegister s op a k) ((decide (8 ≤ a.toNat), op, (a.toNat : Int)) :: l) := by
  refine .check withRegister_ge fun h => ?_
  rw [withRegister_eq, dif_pos (by omega)]
  exact hk _

theorem reports_decrementSp {k : State → Result} (hk : ∀ w : State, w.status = s.status → Reports s (k w) l) :
    Reports s (decrementSp s k) ((decide (s.sp.toNat = 0), .stackAdjust, -1) :: l) := by
  refine .check (fun h => decrementSp_out (byte_eq_zero.mpr h)) fun h => ?_
  rw [decrementSp_in fun e => h (byte_eq_zero.mp e)]
  exact hk _ rfl

theorem reports_incrementSp {w : State} {sp : Byte} {k : State → Result} (hsp : w.sp = sp)
    (hk : ∀ w' : State, w'.status = w.status → Reports s (k w') l) :
    Reports s (incrementSp s w k) ((decide (sp.toNat = 255), .stackAdjust, 256) :: l) := by
  refine .check (fun h => incrementSp_out (hsp.trans (byte_eq_255.mpr h))) fun h => ?_
  rw [incrementSp_in fun e => h (byte_eq_255.mp (hsp.symm.trans e))]
  exact hk _ rfl

theorem reports_withReturnAddress {k : Byte → Result} (hk : ∀ v, Reports s (k v) l) :
    Reports s (withReturnAddress s k) ((decide (255 < s.pc.toNat + 2), .returnAddress, (s.pc.toNat : Int) + 2) :: l) := by
  refine .check withReturnAddress_out fun h => ?_
  rw [withReturnAddress_in (by omega)]
  exact hk _

/-- A next state that keeps the status of a Running state reports that no cause is left. -/
theorem reports_next {t : State} (hrun : s.status = .running) (ht : t.status = s.status) (hl : (l.all fun x => !x.1) = true) :
    Reports s (.next t) l :=
  .done rfl (by rw [ht, hrun]; decide) hl

/-- The checks of an instruction are the causes of its row, in their order. -/
theorem reports_exec {i : Instr} {a b : Byte} (hrun : s.status = .running)
    (hi : i.operandBytes = [a, b].take i.opcode.operandCount) :
    Reports s (exec i s) (effectCauses s i.opcode a b) := by
  cases i with
  | hlt => exact .done rfl (t := (s.setStatus .halted).advancePc 1) nofun rfl
  | ldi x y =>
    cases hi
    exact .skip (reports_withRegister fun _ => reports_next hrun rfl rfl)
  | prn x =>
    cases hi
    exact reports_withRegister fun _ => reports_next hrun rfl rfl
  | mul x y | add x y | cmp x y =>
    cases hi
    exact reports_withRegister fun _ => .skip (reports_withRegister fun _ => reports_next hrun rfl rfl)
  | push x =>
    cases hi
    exact reports_withRegister fun _ => .skip (.skip (reports_decrementSp fun _ hw => reports_next hrun hw rfl))
  | pop x =>
    cases hi
    exact .skip (reports_withRegister fun h => .skip (.skip (.skip (reports_incrementSp (sp_setReg_byte s a h _) fun _ hw =>
      reports_next hrun hw rfl))))
  | call x =>
    cases hi
    exact reports_withRegister fun _ => .skip (.skip (reports_decrementSp fun _ hw => .skip (.skip
      (reports_withReturnAddress fun _ => reports_next hrun hw rfl))))
  | ret =>
    rw [exec, execRet]
    exact .skip (.skip (.skip (.skip (reports_incrementSp rfl fun _ hw => reports_next hrun hw rfl))))
  | jmp x =>
    cases hi
    exact reports_withRegister fun _ => reports_next hrun rfl rfl
  | jeq x =>
    cases hi
    cases hE : flagE s.fl with
    | true =>
      have hreads : readsFirst s.fl .jeq = true := hE
      rw [exec, execJeq_taken hE, Instr.opcode, effectCauses, hreads]
      exact reports_withRegister fun _ => reports_next hrun rfl rfl
    | false =>
      have hreads : readsFirst s.fl .jeq = false := hE
      rw [exec, execJeq_notTaken hE, Instr.opcode, effectCauses, hreads]
      exact reports_next hrun rfl rfl
  | jne x =>
    cases hi
    cases hE : flagE s.fl with
    | true =>
      have hreads : readsFirst s.fl .jne = false := by rw [readsFirst, hE]; rfl
      rw [exec, execJne_notTaken hE, Instr.opcode, effectCauses, hreads]
      exact reports_next hrun rfl rfl
    | false =>
      have hreads : readsFirst s.fl .jne = true := by rw [readsFirst, hE]; rfl
      rw [exec, execJne_taken hE, Instr.opcode, effectCauses, hreads]
      exact reports_withRegister fun _ => reports_next hrun rfl rfl

theorem reports_exec_form (op : Opcode) {a b : Byte} (hrun : s.status = .running) :
    Reports s (exec (op.form.instr a b) s) (effectCauses s op a b) := by
  have h := reports_exec (i := op.form.instr a b) (a := a) (b := b) hrun (by rw [opcode_instr_form, operandBytes_instr_form])
  rwa [opcode_instr_form] at h

/-- The cause of an operand fetch, for an instruction that has that operand. -/
theorem reports_fetchOperand {n k : Nat} {v : Int} {f : Byte → Result} (hn : k ≤ n) (hv : v = (s.pc.toNat + k : Nat))
    (hf : Reports s (f (Memory.read s.mem (s.pc.toNat + k))) l) :
    Reports s (readChecked s .fetchOperand (s.pc.toNat + k) f)
      ((decide (k ≤ n) && decide (255 < s.pc.toNat + k), .fetchOperand, v) :: l) := by
  rw [decide_eq_true hn, Bool.true_and]
  exact reports_readChecked hv fun _ => hf

/-- An operand fetch is no cause for an instruction that has no such operand. -/
theorem Reports.skipOperand {n k : Nat} {b : Bool} {x : FaultOp × Int} {r : Result} (hn : n < k) (h : Reports s r l) :
    Reports s r ((decide (k ≤ n) && b, x) :: l) := by
  rw [decide_eq_false (by omega), Bool.false_and]
  exact .skip h

/-- The fetches of the operands a format takes come before the causes of the instruction, a's before b's. -/
theorem reports_fetchOperandsAndRun {f : Form}
    (hexec : Reports s (exec (f.instr (Memory.read s.mem (s.pc.toNat + 1)) (Memory.read s.mem (s.pc.toNat + 2))) s) l) :
    Reports s (fetchOperandsAndRun s f)
      ((decide (1 ≤ formOperands f) && decide (255 < s.pc.toNat + 1), .fetchOperand, (s.pc.toNat : Int) + 1) ::
        (decide (2 ≤ formOperands f) && decide (255 < s.pc.toNat + 2), .fetchOperand, (s.pc.toNat : Int) + 2) :: l) := by
  have h1 : (s.pc.toNat : Int) + 1 = (s.pc.toNat + 1 : Nat) := by omega
  have h2 : (s.pc.toNat : Int) + 2 = (s.pc.toNat + 2 : Nat) := by omega
  cases f with
  | f0 i => exact .skipOperand Nat.zero_lt_one (.skipOperand Nat.zero_lt_two hexec)
  | f1 mk =>
    rw [fetchOperandsAndRun]
    refine reports_fetchOperand (le_refl 1) h1 ?_
    exact .skipOperand Nat.one_lt_two hexec
  | f2 mk =>
    rw [fetchOperandsAndRun]
    refine reports_fetchOperand one_le_two h1 ?_
    refine reports_fetchOperand (le_refl 2) h2 ?_
    exact hexec

/-- An unknown byte has one cause, under policy fault (R103, R104). -/
theorem reports_runUnknown {policy : UnknownOpcodePolicy} {ir : Byte} (hrun : s.status = .running) :
    Reports s (runUnknown policy ir s) [(decide (policy = .fault), .decode, (ir.toNat : Int))] := by
  cases policy with
  | fault => exact .fault (faultsWith_raise s .decode _)
  | skip =>
    refine .skip (reports_next hrun ?_ rfl)
    split <;> rfl

/-- A step of the engine reports the first of its causes (R216). -/
theorem reports_engineStep (c : LegalConfig) (hrun : s.status = .running) :
    Reports s (engineStep c s) (faultCauses c s) := by
  refine reports_readChecked rfl fun _ => ?_
  cases hop : opcodeOf? c.val.opcodes (Memory.read s.mem s.pc.toNat) with
  | none => exact reports_runUnknown hrun
  | some op =>
    simp only [← formOperands_form op]
    exact reports_fetchOperandsAndRun (reports_exec_form op hrun)

end Reports

/-- Settles O35: the step goes through the checks of fetch, format and instruction in the order of the causes. -/
theorem stepReportsTheFirstFaultOrCompletes : Obligations.StepReportsTheFirstFaultOrCompletes := by
  intro c s hrun
  rw [stepWith_running hrun]
  exact (reports_engineStep c hrun).firstCause

end Sys2Proof.Machine
